-- ==== Sys2Proof/Word.lean ====
section
/-! DEFINITION. The widths of the words DMENC moves (20_memory.md R55, 30_encoding.md R70, R75). -/

namespace Sys2Proof

/-- One byte of the output buffer `OUT`. -/
abbrev Byte := BitVec 8

/-- A binary32 value, held as its bit pattern: `f32` and `bits` of 00_scope.md R10 are the identity. -/
abbrev Binary32 := BitVec 32

/-- One word of the response channel (30_encoding.md R75). -/
abbrev Response := BitVec 32

/-- One command word (30_encoding.md R70). -/
abbrev CommandWord := BitVec 64

end Sys2Proof
end

