-- ==== Sys2Proof/Machine/Fields.lean ====
section
/-! DEFINITION. The fields of a command word and the words R73 calls illegal (30_encoding.md R70, R72, R73). -/

namespace Sys2Proof

/-- `OP`, bits 63..60. -/
def opField (w : CommandWord) : BitVec 4 := w.extractLsb' 60 4

/-- `RSV`, bits 59..32. -/
def rsvField (w : CommandWord) : BitVec 28 := w.extractLsb' 32 28

/-- `OPND`, bits 31..0. -/
def opndField (w : CommandWord) : BitVec 32 := w.extractLsb' 0 32

/-- `{op, 28'0, opnd}` (30_encoding.md R78). -/
def commandWord (op : BitVec 4) (opnd : BitVec 32) : CommandWord := (op ++ 0#28) ++ opnd

/-! The opcodes of 30_encoding.md R72. -/

def opStart : BitVec 4 := 0x1
def opSample : BitVec 4 := 0x2
def opFinish : BitVec 4 := 0x3
def opRdbyte : BitVec 4 := 0x4
def opRdlen : BitVec 4 := 0x5
def opRdstat : BitVec 4 := 0x6
def opRddbg : BitVec 4 := 0x7

/-- Why a word is illegal: the three cases of 30_encoding.md R73, in its order. -/
inductive IllegalReason where
  /-- "`OP` is 0x0 or 0x8 to 0xF". -/
  | reservedOpcode
  /-- "`RSV ≠ 0`, whatever `OP` is". -/
  | reservedBitsSet
  /-- "`OP` is one of 0x3, 0x5, 0x6, 0x7 and `OPND ≠ 0`". -/
  | operandNotZero
  deriving DecidableEq, Repr

/-- The first of R73's cases that a word falls under, or none where the word is a legal command. -/
def illegalReason (w : CommandWord) : Option IllegalReason :=
  if (opField w).toNat = 0 ∨ 8 ≤ (opField w).toNat then some .reservedOpcode
  else if rsvField w ≠ 0 then some .reservedBitsSet
  else if (opField w).toNat ∈ [3, 5, 6, 7] ∧ opndField w ≠ 0 then some .operandNotZero
  else none

end Sys2Proof
end

