-- ==== Sys2Proof/Syntax.lean ====
section
/-! DEFINITION. The commands of DMENC, one constructor per row of opcode_table.json (30_encoding.md R72, R73). -/

namespace Sys2Proof

inductive Instr where
  /-- START gain_db (40_start.md R100). -/
  | start (gainDb : Binary32)
  /-- SAMPLE x (41_sample.md R120). -/
  | sample (x : Binary32)
  /-- FINISH (42_finish.md R160). -/
  | finish
  /-- RDBYTE index (43_readout.md R180). -/
  | rdbyte (index : BitVec 32)
  /-- RDLEN (43_readout.md R183). -/
  | rdlen
  /-- RDSTAT (43_readout.md R184). -/
  | rdstat
  /-- RDDBG (43_readout.md R185). -/
  | rddbg
  /-- The row ILLEGAL: a word that is no other command (30_encoding.md R73), with the word itself (log 13). -/
  | illegal (word : CommandWord)
  deriving DecidableEq, Repr

end Sys2Proof
end

