-- ==== Sys2Proof/WellFormed.lean ====
section
/-! DEFINITION. Which instructions are well-formed: every operand of 32 bits is allowed (30_encoding.md R71), and the row ILLEGAL
holds only the words of R73. -/

namespace Sys2Proof

/-- Why an instruction is ill-formed. -/
inductive IllFormed where
  /-- `illegal` holds a word that is a legal command. -/
  | legalWordAsIllegal
  deriving DecidableEq, Repr

def Instr.illFormed : Instr → Option IllFormed
  | .start _ => none
  | .sample _ => none
  | .finish => none
  | .rdbyte _ => none
  | .rdlen => none
  | .rdstat => none
  | .rddbg => none
  | .illegal w => if illegalReason w = none then some .legalWordAsIllegal else none

def Instr.wellFormed (i : Instr) : Bool := i.illFormed == none

end Sys2Proof
end

