-- ==== Sys2Proof/Decode.lean ====
section
/-! DEFINITION. The decoder of 30_encoding.md R74, total on the 64-bit words, and the encoder of R78. -/

namespace Sys2Proof

/-- 30_encoding.md R74. A word that is no command is rejected as `illegal`; `illegalReason` names why. -/
def decode (w : CommandWord) : Instr :=
  let op := opField w
  let opnd := opndField w
  if rsvField w ≠ 0 then .illegal w
  else if op = opStart then .start opnd
  else if op = opSample then .sample opnd
  else if op = opFinish then (if opnd = 0 then .finish else .illegal w)
  else if op = opRdbyte then .rdbyte opnd
  else if op = opRdlen then (if opnd = 0 then .rdlen else .illegal w)
  else if op = opRdstat then (if opnd = 0 then .rdstat else .illegal w)
  else if op = opRddbg then (if opnd = 0 then .rddbg else .illegal w)
  else .illegal w

/-- The word of a well-formed instruction (30_encoding.md R78). -/
def encode : Instr → CommandWord
  | .start gainDb => commandWord opStart gainDb
  | .sample x => commandWord opSample x
  | .finish => commandWord opFinish 0
  | .rdbyte index => commandWord opRdbyte index
  | .rdlen => commandWord opRdlen 0
  | .rdstat => commandWord opRdstat 0
  | .rddbg => commandWord opRddbg 0
  | .illegal w => w

/-- The command word whose low `nbits` bits are those of `w` and whose other bits are 0 (log 15). -/
def tableWord (nbits w : Nat) : CommandWord := BitVec.ofNat 64 (w % 2 ^ nbits)

/-- The instruction the decoder reads from a row's bits as opcode_table.json numbers them (log 15). A command is one whole
64-bit word (R70), so more than 64 bits are no command word. -/
def decodeTableWord (nbits w : Nat) : Option Instr :=
  if nbits ≤ 64 then some (decode (tableWord nbits w)) else none

end Sys2Proof
end

