-- ==== Sys2Proof/Machine/Binary32.lean ====
section
/-! DEFINITION. The binary32 primitives of 00_scope.md R10: exact arithmetic on integers, then one rounding to nearest, ties to
even (92_eei_decisions.md D4: subnormals kept, no exception flags). The meaning of the bit patterns is IEEE 754's
(93_implementation_defined.md G5): PRESUMED, unsafe, log 10. -/

namespace Sys2Proof

/-- The sign bit. -/
def f32Sign (f : Binary32) : Bool := f.getLsbD 31

/-- The exponent field, bits 30..23. -/
def f32Exponent (f : Binary32) : Nat := (f.extractLsb' 23 8).toNat

/-- The fraction field, bits 22..0. -/
def f32Fraction (f : Binary32) : Nat := (f.extractLsb' 0 23).toNat

/-- 00_scope.md R10: "true when the exponent field is all ones and the fraction is not zero". -/
def isNaN (f : Binary32) : Bool := f32Exponent f == 255 && f32Fraction f != 0

def isInfinite (f : Binary32) : Bool := f32Exponent f == 255 && f32Fraction f == 0

def isFinite (f : Binary32) : Bool := f32Exponent f != 255

/-- `+0.0` or `-0.0`. -/
def isZero (f : Binary32) : Bool := f32Exponent f == 0 && f32Fraction f == 0

/-- The magnitude of a finite value in units of 2^-149, the spacing of the subnormals: every finite binary32 is a whole number
of them. -/
def unitsOf (f : Binary32) : Nat :=
  if f32Exponent f = 0 then f32Fraction f else (2 ^ 23 + f32Fraction f) * 2 ^ (f32Exponent f - 1)

/-- A finite value in units of 2^-149. -/
def signedUnitsOf (f : Binary32) : Int := if f32Sign f then -(unitsOf f : Int) else (unitsOf f : Int)

/-- `num / den` rounded to a whole number, to nearest, ties to even. -/
def roundHalfEven (num den : Nat) : Nat :=
  let q := num / den
  let r := num % den
  if den < 2 * r || (2 * r == den && q % 2 == 1) then q + 1 else q

/-- The exponent code of +∞, and of every magnitude that rounds past the largest finite value. -/
def infinityMagnitude : Nat := 0x7F800000

/-- The 31 magnitude bits of the binary32 nearest to `num / den` units of 2^-149, ties to even. Values below 2^24 units
(subnormals and the first normal binade) have spacing 1 unit; above that the spacing doubles with each binade, and a carry out
of the fraction moves into the exponent field by itself. -/
def roundMagnitude (num den : Nat) : Nat :=
  let k := (num / den).log2 - 23
  min (k * 2 ^ 23 + roundHalfEven num (den * 2 ^ k)) infinityMagnitude

/-- The pattern with the given sign and the given 31 magnitude bits. -/
def packBinary32 (sign : Bool) (magnitude : Nat) : Binary32 :=
  BitVec.ofNat 32 ((if sign then 2 ^ 31 else 0) + magnitude)

/-- The NaN an operation without a result gives. PRESUMED (log 9): IEEE 754 does not fix the pattern, and no rule stores or
outputs one. -/
def quietNaN : Binary32 := 0x7FC00000

/-- Sign change, `-f`. -/
def fneg (f : Binary32) : Binary32 := f ^^^ 0x80000000

/-- Correctly rounded multiplication (00_scope.md R10). -/
def fmul (a b : Binary32) : Binary32 :=
  let sign := f32Sign a ^^ f32Sign b
  if isNaN a || isNaN b then quietNaN
  else if isInfinite a || isInfinite b then
    if isZero a || isZero b then quietNaN else packBinary32 sign infinityMagnitude
  else packBinary32 sign (roundMagnitude (unitsOf a * unitsOf b) (2 ^ 149))

/-- Correctly rounded division (00_scope.md R10). -/
def fdiv (a b : Binary32) : Binary32 :=
  let sign := f32Sign a ^^ f32Sign b
  if isNaN a || isNaN b then quietNaN
  else if isInfinite a then
    if isInfinite b then quietNaN else packBinary32 sign infinityMagnitude
  else if isInfinite b then packBinary32 sign 0
  else if isZero b then
    if isZero a then quietNaN else packBinary32 sign infinityMagnitude
  else packBinary32 sign (roundMagnitude (unitsOf a * 2 ^ 149) (unitsOf b))

/-- Correctly rounded addition (00_scope.md R10). An exact zero sum is `+0.0` unless both operands carry the minus sign. -/
def fadd (a b : Binary32) : Binary32 :=
  if isNaN a || isNaN b then quietNaN
  else if isInfinite a then
    if isInfinite b && (f32Sign a != f32Sign b) then quietNaN else a
  else if isInfinite b then b
  else
    let sum := signedUnitsOf a + signedUnitsOf b
    if sum = 0 then packBinary32 (f32Sign a && f32Sign b) 0
    else packBinary32 (decide (sum < 0)) (roundMagnitude sum.natAbs 1)

/-- The place of a value that is not NaN in the IEEE order: the magnitude bits grow with the magnitude, and `-0.0` and `+0.0`
share a place. -/
def orderKey (f : Binary32) : Int :=
  let magnitude : Int := ((f.extractLsb' 0 31).toNat : Int)
  if f32Sign f then -magnitude else magnitude

/-- IEEE ordered `a ≥ b`, false when either operand is NaN (00_scope.md R10). -/
def fge (a b : Binary32) : Bool := !isNaN a && !isNaN b && decide (orderKey b ≤ orderKey a)

/-- IEEE ordered `a > b` (00_scope.md R10). -/
def fgt (a b : Binary32) : Bool := !isNaN a && !isNaN b && decide (orderKey b < orderKey a)

/-- IEEE ordered `a < b` (00_scope.md R10). -/
def flt (a b : Binary32) : Bool := fgt b a

/-- The exact binary32 of a small natural number, `float(n)` of 00_scope.md R10. -/
def floatOfNat (n : Nat) : Binary32 := packBinary32 false (roundMagnitude (n * 2 ^ 149) 1)

def plusZero : Binary32 := 0x00000000

def minusZero : Binary32 := 0x80000000

def one : Binary32 := 0x3F800000

end Sys2Proof
end

