-- ==== Sys2Proof/Machine/Gain.lean ====
section
/-! DEFINITION. `DB_TO_LINEAR` as plain data: "a function from binary32 to binary32" (00_scope.md R5) written as a table, so that a
configuration can hold it. -/

namespace Sys2Proof

/-- A function from binary32 to binary32 as (operand, result) rows. The first row of an operand counts, and an operand without a
row gives 1.0. Every such function has a table (`exists_gainTable`), so the form leaves none out (log 5). -/
abbrev GainTable := List (Binary32 × Binary32)

/-- The function a table stands for. -/
def gainOf : GainTable → Binary32 → Binary32
  | [], _ => one
  | (operand, result) :: rest, x => if x = operand then result else gainOf rest x

end Sys2Proof
end

