-- ==== Sys2Proof/Config.lean ====
section
/-! DEFINITION. What one DMENC instance fixes (00_scope.md R5, R6; 10_state.md R33) and the values the spec leaves free. -/

namespace Sys2Proof

/-- The six open parameters of 00_scope.md R5. `gainTable` is `DB_TO_LINEAR` (log 5). -/
structure Params where
  maxCapacity : Nat
  clampLimit : Binary32
  scaleDivisor : Binary32
  gainDbMin : Binary32
  gainDbMax : Binary32
  gainTable : GainTable
  deriving DecidableEq, Repr

/-- `DB_TO_LINEAR` of the instance (00_scope.md R5). -/
def Params.dbToLinear (p : Params) (gainDb : Binary32) : Binary32 := gainOf p.gainTable gainDb

/-- "non-NaN" and `GAIN_DB_MIN ≤ g ≤ GAIN_DB_MAX` (00_scope.md R6). -/
def Params.inGainRange (p : Params) (g : Binary32) : Bool := fge g p.gainDbMin && fge p.gainDbMax g

/-- What 00_scope.md R6 asks of `DB_TO_LINEAR`, and no more: 1.0 at ±0.0, and a finite result above zero for every operand of the
gain range. An operand without a row has the result 1.0, so the rows are all there is to check. -/
def Params.gainLegal (p : Params) : Bool :=
  (p.dbToLinear plusZero == one && p.dbToLinear minusZero == one)
  && p.gainTable.all fun row =>
    !p.inGainRange row.1 || (isFinite (p.dbToLinear row.1) && fgt (p.dbToLinear row.1) plusZero)

/-- The conditions 00_scope.md R6 puts on the parameters. -/
def Params.legal (p : Params) : Bool :=
  decide (p.maxCapacity ≤ 2 ^ 32 - 1)
  && (isFinite p.clampLimit && fgt p.clampLimit plusZero)
  && (isFinite p.scaleDivisor && fgt p.scaleDivisor plusZero)
  && (isFinite p.gainDbMin && isFinite p.gainDbMax)
  && (fge plusZero p.gainDbMin && fge p.gainDbMax plusZero)
  && p.gainLegal

/-- A DMENC configuration: parameters with the proof that they meet R6, so that one which breaks R6 cannot be built. The
default values are only the witness that a legal configuration exists, and nothing reads them (log 4). -/
structure Config where
  params : Params := ⟨0, 0x3F800000, 0x3F800000, 0x00000000, 0x00000000, []⟩
  legal : params.legal = true := by decide
  deriving DecidableEq, Repr, Inhabited

/-- 00_scope.md R6: "A configuration that breaks one of them is not a DMENC configuration, and the model refuses it." -/
def Config.ofParams (p : Params) : Option Config :=
  if h : p.legal = true then some ⟨p, h⟩ else none

/-- The configuration of the instance that `State.reset` describes: any legal one (log 4). -/
opaque Config.built : Config

/-- The response to the n-th RDBYTE at or above `OUT_LEN`: "unconstrained" (43_readout.md R181; log 6). -/
opaque Config.freeResponse : Nat → Response

end Sys2Proof
end

