-- ==== Sys2Proof/Machine/State.lean ====
section
/-! DEFINITION. The state of DMENC (10_state.md), the host's inputs, the reasons a step stops, and the state after RESET. -/

namespace Sys2Proof.Machine

/-- `PHASE` (10_state.md R26). The fourth code of the 2-bit register is never held (log 12). -/
inductive Phase where
  | idle
  | encoding
  | done
  deriving DecidableEq, Repr

/-- The four error flags (60_exceptions.md R200). -/
inductive ErrFlag where
  | illegal
  | protocol
  | domain
  | range
  deriving DecidableEq, Repr

/-- What the host does to the block between commands (log 1). -/
inductive HostInput where
  /-- The block input RESET (70_reset_and_hazards.md R230). -/
  | reset
  /-- A command word on the command channel (30_encoding.md R70). -/
  | command (word : CommandWord)
  /-- The host takes the oldest response from the response channel (30_encoding.md R75; log 8). -/
  | takeResponse
  deriving DecidableEq, Repr

/-- `OUT`: the written bytes as (index, byte) pairs, indices strictly rising. An index that is not listed is UNWRITTEN
(10_state.md R29) and has no value (log 7). -/
abbrev Memory := List Host.Cell

structure State where
  /-- The instance's parameters, which nothing writes (10_state.md R33). -/
  config : Config
  /-- `PHASE` (10_state.md R26). -/
  phase : Phase
  /-- `G` (10_state.md R25). -/
  g : Binary32
  /-- `DELTA` (10_state.md R20). -/
  delta : BitVec 6
  /-- `ACC` (10_state.md R22). -/
  acc : Byte
  /-- `NBITS` (10_state.md R23). -/
  nbits : BitVec 3
  /-- `OUT_LEN` (10_state.md R28). -/
  outLen : BitVec 32
  /-- `OUT` (10_state.md R29). -/
  out : Memory
  /-- `ERR_ILLEGAL` (10_state.md R30). -/
  errIllegal : Bool
  /-- `ERR_PROTOCOL` (10_state.md R30). -/
  errProtocol : Bool
  /-- `ERR_DOMAIN` (10_state.md R30). -/
  errDomain : Bool
  /-- `ERR_RANGE` (10_state.md R30). -/
  errRange : Bool
  /-- The response channel: the responses not yet taken, oldest first (30_encoding.md R75; log 16). -/
  responses : List Response
  /-- The model's own: what the host does next, oldest first (log 1). -/
  inputs : List HostInput
  /-- The model's own: how many free responses have been drawn (log 6). -/
  draws : Nat
  /-- The model's own: a RESET has been asserted since power-on (70_reset_and_hazards.md R231; log 2). -/
  wasReset : Bool
  deriving DecidableEq, Repr

/-- Why the machine stops with a fault. -/
inductive Fault where
  /-- RDBYTE below `OUT_LEN` met an UNWRITTEN byte, for which MemRead is not defined (20_memory.md R52). Safe: 10_state.md R34
  (I-d) rules it out in every reachable state (log 7). -/
  | unwrittenByte
  deriving DecidableEq, Repr

/-- Why the model gives no meaning. -/
inductive Refusal where
  /-- An arm of the dispatcher that has no meaning yet. No arm raises it. Safe. -/
  | notModelled (mnemonic : String)
  /-- The step refuses a command issued, or a response taken, before the first RESET: "such a run is refused"
  (70_reset_and_hazards.md R231). Safe (log 2). -/
  | beforeFirstReset
  deriving DecidableEq, Repr

/-- The values RESET gives (70_reset_and_hazards.md R230; 10_state.md section 1), for an instance with configuration `c`.
`g` is DESIGN CHOICE (log 3); `inputs`, `draws` and `wasReset` are the model's own. -/
def State.resetOf (c : Config) : State where
  config := c
  phase := .idle
  g := 0x00000000
  delta := 32
  acc := 0x00
  nbits := 0
  outLen := 0
  out := []
  errIllegal := false
  errProtocol := false
  errDomain := false
  errRange := false
  responses := []
  inputs := []
  draws := 0
  wasReset := true

/-- The machine right after its first RESET. -/
def State.reset : State := State.resetOf Config.built

end Sys2Proof.Machine
end

