-- ==== Sys2Proof/Machine/Flags.lean ====
section
/-! DEFINITION. The sticky flags, the derived signals and the status and debug words (10_state.md R27, R30; 43_readout.md R184,
R185; 60_exceptions.md R200). -/

namespace Sys2Proof.Machine

/-- `FULL = (OUT_LEN = MAX_CAPACITY)` (10_state.md R27). -/
def isFull (s : State) : Bool := s.outLen.toNat == s.config.params.maxCapacity

/-- `IN_READY = (PHASE = ENCODING) ∧ ¬FULL` (10_state.md R27). -/
def inReady (s : State) : Bool := s.phase == .encoding && !isFull s

/-- The 2-bit code of `PHASE` (10_state.md R26). -/
def phaseCode : Phase → BitVec 2
  | .idle => 0
  | .encoding => 1
  | .done => 2

/-- The value of an error flag. -/
def errFlag (s : State) : ErrFlag → Bool
  | .illegal => s.errIllegal
  | .protocol => s.errProtocol
  | .domain => s.errDomain
  | .range => s.errRange

/-- The bit of the status word that shows a flag (60_exceptions.md R200). -/
def errStatusBit : ErrFlag → Nat
  | .illegal => 4
  | .protocol => 5
  | .domain => 6
  | .range => 7

/-- "The cause number is the flag's bit position minus 4" (60_exceptions.md R200). -/
def errCause (e : ErrFlag) : Nat := errStatusBit e - 4

/-- The status word (43_readout.md R184). -/
def statusWord (s : State) : Response :=
  (BitVec.ofBool s.errRange ++ BitVec.ofBool s.errDomain ++ BitVec.ofBool s.errProtocol ++ BitVec.ofBool s.errIllegal
    ++ BitVec.ofBool (inReady s) ++ BitVec.ofBool (isFull s) ++ phaseCode s.phase : BitVec 8).setWidth 32

/-- The debug word (43_readout.md R185). -/
def debugWord (s : State) : Response := (s.nbits ++ 0#2 ++ s.delta ++ s.acc : BitVec 19).setWidth 32

end Sys2Proof.Machine
end

