-- ==== Sys2Proof/Machine/Operands.lean ====
section
/-! DEFINITION. What the commands compute from their operands: the gain's domain, the clamp, the scaled
sample, the decision, the counter's step, the packed accumulator (40_start.md, 41_sample.md), and the fixed parameters of
00_scope.md R5. -/

namespace Sys2Proof.Machine

/-! Fixed parameters (00_scope.md R5). -/

/-- `BIAS` as the value `DELTA` is seeded with. -/
def bias : BitVec 6 := 32
/-- `BIAS` as the binary32 constant 32.0 of 41_sample.md R126. -/
def biasFloat : Binary32 := 0x42000000
/-- `COUNTER_MIN`. -/
def counterMin : Int := 0
/-- `COUNTER_MAX`. -/
def counterMax : Int := 63
/-- `BITS_PER_BYTE`. -/
def bitsPerByte : Nat := 8
/-- `ALIGN_MODULUS`. -/
def alignModulus : Nat := 16
/-- `ALIGN_RESIDUE`. -/
def alignResidue : Nat := 1
/-- `FILL_BYTE`. -/
def fillByte : Byte := 0xAA

/-- START's domain check (40_start.md R101), the bounds inclusive (R106). -/
def gainAccepted (p : Params) (gainDb : Binary32) : Bool :=
  !(isNaN gainDb || flt gainDb p.gainDbMin || fgt gainDb p.gainDbMax)

/-- Step 1, the clamp to `[-CLAMP_LIMIT, +CLAMP_LIMIT]` (41_sample.md R124). -/
def clampSample (p : Params) (x : Binary32) : Binary32 :=
  if fgt x p.clampLimit then p.clampLimit
  else if flt x (fneg p.clampLimit) then fneg p.clampLimit
  else x

/-- Step 1, the gain after the clamp (41_sample.md R125). -/
def gainedSample (p : Params) (g x : Binary32) : Binary32 := fmul (clampSample p x) g

/-- Step 2, scale and bias (41_sample.md R126). -/
def scaledSample (p : Params) (g x : Binary32) : Binary32 :=
  fadd (fdiv (gainedSample p g x) p.scaleDivisor) biasFloat

/-- Step 3, the decision bit (41_sample.md R127). -/
def decisionBit (p : Params) (g : Binary32) (delta : BitVec 6) (x : Binary32) : Bool :=
  fge (scaledSample p g x) (floatOfNat delta.toNat)

/-- Step 3, the counter's step on unbounded integers with explicit saturation (41_sample.md R128; 00_scope.md R11). -/
def stepDelta (bit : Bool) (delta : BitVec 6) : BitVec 6 :=
  let n : Int := delta.toNat
  BitVec.ofInt 6 (if bit then min (n + 1) counterMax else max (n - 1) counterMin)

/-- Step 4, bit packing: "the accumulator shifts right by one, with zero into bit 7, and then the new bit goes into bit 7"
(41_sample.md R130). -/
def packBit (bit : Bool) (acc : Byte) : Byte := (acc >>> 1) ||| ((BitVec.ofBool bit).setWidth 8 <<< 7)

end Sys2Proof.Machine
end

