-- ==== Sys2Proof/Machine/Ops.lean ====
section
/-! DEFINITION. The operations the commands share: the output buffer (20_memory.md R52), raising an error (60_exceptions.md R201),
the response channel (30_encoding.md R75), the seeding of a conversion, one encoded sample, length alignment, and RESET. -/

namespace Sys2Proof.Machine

/-! ### The output buffer -/

/-- The canonical form of `OUT`: indices strictly rising. An unlisted index has no value, so no listed byte can equal it. -/
def Memory.wf : Memory → Bool
  | [] => true
  | [_] => true
  | (a, _) :: (b, w) :: rest => decide (a < b) && Memory.wf ((b, w) :: rest)

/-- The byte at an index, or none where it is UNWRITTEN (10_state.md R29). -/
def memRead : Memory → Nat → Option Byte
  | [], _ => none
  | (b, v) :: rest, a => if a = b then some v else memRead rest a

/-- `OUT[a] <- v` (20_memory.md R52), keeping the canonical form. -/
def memWrite : Memory → Nat → Byte → Memory
  | [], a, v => [(a, v)]
  | (b, w) :: rest, a, v =>
    if a < b then (a, v) :: (b, w) :: rest
    else if a = b then (a, v) :: rest
    else (b, w) :: memWrite rest a v

/-- `Append(v)` (20_memory.md R52). Its callers check `OUT_LEN < MAX_CAPACITY` first. -/
def append (v : Byte) (s : State) : State :=
  { s with out := memWrite s.out s.outLen.toNat v, outLen := s.outLen + 1 }

/-! ### Errors and responses -/

/-- `raise ERR_X()`: `ERR_X <- 1` and nothing else (60_exceptions.md R201). There is no return from it: no error saves state or
redirects control (R206). -/
def raise (e : ErrFlag) (s : State) : State :=
  match e with
  | .illegal => { s with errIllegal := true }
  | .protocol => { s with errProtocol := true }
  | .domain => { s with errDomain := true }
  | .range => { s with errRange := true }

/-- `respond(v)`: one word at the young end of the response channel (30_encoding.md R75). -/
def respond (v : Response) (s : State) : State := { s with responses := s.responses ++ [v] }

/-- `respond(ANY)`: an unconstrained response (43_readout.md R181; log 6). -/
def respondAny (s : State) : State :=
  respond (Config.freeResponse s.draws) { s with draws := s.draws + 1 }

/-- The host takes the oldest response, if there is one (log 8). -/
def takeResponse (s : State) : State := { s with responses := s.responses.tail }

/-! ### Conversions -/

/-- An accepted START (40_start.md R102 to R104). -/
def beginConversion (gainDb : Binary32) (s : State) : State :=
  { s with
    g := s.config.params.dbToLinear gainDb
    delta := bias
    acc := 0x00
    nbits := 0
    outLen := 0
    out := []
    phase := .encoding }

/-- Step 5, byte completion, after `ACC` holds the packed bit (41_sample.md R131). -/
def completeByte (s : State) : State :=
  if s.nbits.toNat + 1 = bitsPerByte then { append s.acc s with nbits := 0 } else { s with nbits := s.nbits + 1 }

/-- Steps 3 to 5 for a decision bit (41_sample.md R128, R130, R131). -/
def encodeBit (bit : Bool) (s : State) : State :=
  completeByte { s with delta := stepDelta bit s.delta, acc := packBit bit s.acc }

/-- The decision bit of sample `x` in state `s` (41_sample.md R124 to R127). -/
def sampleBit (x : Binary32) (s : State) : Bool := decisionBit s.config.params s.g s.delta x

/-- An accepted SAMPLE, steps 1 to 5 (41_sample.md R120). -/
def encodeSample (x : Binary32) (s : State) : State := encodeBit (sampleBit x s) s

/-- The loop of 42_finish.md R162, at most `fuel` times round. -/
def padFiller : Nat → State → State
  | 0, s => s
  | fuel + 1, s =>
    if s.outLen.toNat < s.config.params.maxCapacity ∧ s.outLen.toNat % alignModulus ≠ alignResidue then
      padFiller fuel (append fillByte s)
    else s

/-- Length alignment (42_finish.md R162). "The number of filler bytes is between 0 and 15" (R164), so 15 rounds are the whole
loop. -/
def alignLength (s : State) : State := padFiller (alignModulus - 1) s

/-! ### RESET -/

/-- RESET (70_reset_and_hazards.md R230): every register to its reset value, untaken responses discarded. The configuration, the
host's later inputs and the numbering of free values are no registers and stay (log 2). -/
def assertReset (s : State) : State :=
  { State.resetOf s.config with inputs := s.inputs, draws := s.draws }

end Sys2Proof.Machine
end

