-- ==== Sys2Proof/Machine/Conversion.lean ====
section
/-! DEFINITION. The commands of a conversion: START (40_start.md), SAMPLE (41_sample.md), FINISH (42_finish.md). -/

namespace Sys2Proof.Machine

/-- START gain_db (40_start.md R100 to R105): accepted in every phase. -/
def execStart (gainDb : Binary32) (s : State) : Host.Outcome State Fault Refusal :=
  .next (if gainAccepted s.config.params gainDb then beginConversion gainDb s else raise .domain s)

/-- SAMPLE x (41_sample.md R120): phase first, then capacity, then NaN. -/
def execSample (x : Binary32) (s : State) : Host.Outcome State Fault Refusal :=
  .next
    (if s.phase ≠ .encoding then raise .protocol s
     else if isFull s then s
     else if isNaN x then raise .domain s
     else encodeSample x s)

/-- FINISH (42_finish.md R160): the bits of an incomplete group are discarded (R163). -/
def execFinish (s : State) : Host.Outcome State Fault Refusal :=
  .next (if s.phase ≠ .encoding then raise .protocol s else { alignLength s with phase := .done })

end Sys2Proof.Machine
end

