-- ==== Sys2Proof/Machine/Illegal.lean ====
section
/-! DEFINITION. A word that is no command (30_encoding.md R73). -/

namespace Sys2Proof.Machine

/-- "An illegal command word does one thing: `raise ERR_ILLEGAL()`" (30_encoding.md R73); the word is not recorded
(60_exceptions.md R200). -/
def execIllegal (s : State) : Host.Outcome State Fault Refusal := .next (raise .illegal s)

end Sys2Proof.Machine
end

