-- ==== Sys2Proof/Machine/Readout.lean ====
section
/-! DEFINITION. The read commands, accepted in every phase (43_readout.md). -/

namespace Sys2Proof.Machine

/-- RDBYTE index (43_readout.md R180, R181). -/
def execRdbyte (index : BitVec 32) (s : State) : Host.Outcome State Fault Refusal :=
  if s.outLen ≤ index then .next (respondAny (raise .range s))
  else
    match memRead s.out index.toNat with
    | some b => .next (respond (b.setWidth 32) s)
    | none => .fault .unwrittenByte

/-- RDLEN (43_readout.md R183). -/
def execRdlen (s : State) : Host.Outcome State Fault Refusal := .next (respond s.outLen s)

/-- RDSTAT (43_readout.md R184). -/
def execRdstat (s : State) : Host.Outcome State Fault Refusal := .next (respond (statusWord s) s)

/-- RDDBG (43_readout.md R185). -/
def execRddbg (s : State) : Host.Outcome State Fault Refusal := .next (respond (debugWord s) s)

end Sys2Proof.Machine
end

