-- ==== Sys2Proof/Machine/Dispatch.lean ====
section
/-! DEFINITION. One arm per command. -/

namespace Sys2Proof.Machine

def exec (i : Instr) (s : State) : Host.Outcome State Fault Refusal :=
  match i with
  | .start gainDb => Sys2Proof.Machine.execStart gainDb s
  | .sample x => Sys2Proof.Machine.execSample x s
  | .finish => Sys2Proof.Machine.execFinish s
  | .rdbyte index => Sys2Proof.Machine.execRdbyte index s
  | .rdlen => Sys2Proof.Machine.execRdlen s
  | .rdstat => Sys2Proof.Machine.execRdstat s
  | .rddbg => Sys2Proof.Machine.execRddbg s
  | .illegal _ => Sys2Proof.Machine.execIllegal s

end Sys2Proof.Machine
end

