-- ==== Sys2Proof/Machine/Step.lean ====
section
/-! DEFINITION. One step: the host's next act (log 1). -/

namespace Sys2Proof.Machine

/-- One step. With nothing pending "the block holds its state" (60_exceptions.md R210). Before the first RESET only RESET has a
meaning (70_reset_and_hazards.md R231; log 2). A command word is decoded and executed (30_encoding.md R74). -/
def step (s : State) : Host.Outcome State Fault Refusal :=
  match s.inputs with
  | [] => .next s
  | .reset :: rest => .next (assertReset { s with inputs := rest })
  | .takeResponse :: rest =>
    if s.wasReset then .next (takeResponse { s with inputs := rest }) else .refused .beforeFirstReset
  | .command w :: rest =>
    if s.wasReset then exec (decode w) { s with inputs := rest } else .refused .beforeFirstReset

/-- `s` with the host about to issue the command word whose bits are `w`, after a RESET (log 14). -/
def State.withFetchWord (s : State) (nbits w : Nat) : State :=
  { s with inputs := .command (tableWord nbits w) :: s.inputs, wasReset := true }

end Sys2Proof.Machine
end

