-- ==== Sys2Proof/Machine/Assembler.lean ====
section
/-! DEFINITION. The assembly syntax of 30_encoding.md R78 and the pseudo-instruction of R79: from a line of text to command words.
The lexical details R78 does not give are DESIGN CHOICE, log 17. -/

namespace Sys2Proof.Machine

/-- A float operand (30_encoding.md R78). -/
inductive FloatOperand where
  /-- A decimal literal: its sign, all its digits as one number, and how many of them follow the point. -/
  | decimal (negative : Bool) (digits fractionDigits : Nat)
  /-- `inf` or `-inf`. -/
  | infinity (negative : Bool)
  /-- `f32#0xHHHHHHHH`, "the bit pattern itself". -/
  | pattern (bits : Binary32)
  deriving DecidableEq, Repr

/-- `bits(<f>)`: a decimal literal is "converted to the nearest binary32, ties to even" (30_encoding.md R78). -/
def floatBits : FloatOperand → Binary32
  | .decimal negative digits fractionDigits =>
    packBinary32 negative (roundMagnitude (digits * 2 ^ 149) (10 ^ fractionDigits))
  | .infinity negative => packBinary32 negative infinityMagnitude
  | .pattern bits => bits

/-- One line of assembly (30_encoding.md R78, R79). -/
inductive AsmLine where
  | start (f : FloatOperand)
  | sample (f : FloatOperand)
  | sampleN (f : FloatOperand) (n : Nat)
  | finish
  | rdbyte (n : Nat)
  | rdlen
  | rdstat
  | rddbg
  | word64 (h : Nat)
  deriving DecidableEq, Repr

/-- The words of a line. An index or a word that does not fit, and a SAMPLEN of no copies, has none (R78, R79). R79 asks `n ≥ 1`
of SAMPLEN and does not say whether R78's range of `<n>` bounds it above: the model bounds it by nothing else, so a count of 2^32
or more expands too (DESIGN CHOICE, log 17). -/
def assembleLine : AsmLine → Option (List CommandWord)
  | .start f => some [encode (.start (floatBits f))]
  | .sample f => some [encode (.sample (floatBits f))]
  | .sampleN f n => if n = 0 then none else some (List.replicate n (encode (.sample (floatBits f))))
  | .finish => some [encode .finish]
  | .rdbyte n => if n < 2 ^ 32 then some [encode (.rdbyte (BitVec.ofNat 32 n))] else none
  | .rdlen => some [encode .rdlen]
  | .rdstat => some [encode .rdstat]
  | .rddbg => some [encode .rddbg]
  | .word64 h => if h < 2 ^ 64 then some [BitVec.ofNat 64 h] else none

/-- The words of a program, line by line. -/
def assemble : List AsmLine → Option (List CommandWord)
  | [] => some []
  | line :: rest => do
    let ws ← assembleLine line
    let more ← assemble rest
    pure (ws ++ more)

/-! ### Reading a line of text -/

/-- The value of a digit in a base of at most 16. -/
def digitValue (base : Nat) (c : Char) : Option Nat :=
  let v :=
    if '0' ≤ c ∧ c ≤ '9' then c.toNat - 48
    else if 'a' ≤ c ∧ c ≤ 'f' then c.toNat - 87
    else if 'A' ≤ c ∧ c ≤ 'F' then c.toNat - 55
    else 16
  if v < base then some v else none

/-- Digits onto a number already read. -/
def readDigits (base : Nat) : Nat → List Char → Option Nat
  | acc, [] => some acc
  | acc, c :: rest =>
    match digitValue base c with
    | some v => readDigits base (acc * base + v) rest
    | none => none

/-- A number of at least one digit. -/
def readNumber (base : Nat) (cs : List Char) : Option Nat :=
  if cs = [] then none else readDigits base 0 cs

/-- `0x` and hex digits. -/
def readHex : List Char → Option Nat
  | '0' :: 'x' :: rest => readNumber 16 rest
  | _ => none

/-- "An integer operand `<n>` is decimal or `0x` hex" (30_encoding.md R78). -/
def readInteger (cs : List Char) : Option Nat :=
  match readHex cs with
  | some n => some n
  | none => readNumber 10 cs

/-- An unsigned decimal literal, with or without a point. -/
def readDecimal (negative : Bool) (cs : List Char) : Option FloatOperand := do
  let whole := cs.takeWhile (· ≠ '.')
  let n ← readNumber 10 whole
  match cs.drop whole.length with
  | [] => pure (.decimal negative n 0)
  | _ :: fraction =>
    if fraction = [] then none
    else do
      let digits ← readDigits 10 n fraction
      pure (.decimal negative digits fraction.length)

/-- A float operand (30_encoding.md R78); a pattern has exactly eight hex digits. -/
def readFloat : List Char → Option FloatOperand
  | ['i', 'n', 'f'] => some (.infinity false)
  | ['-', 'i', 'n', 'f'] => some (.infinity true)
  | 'f' :: '3' :: '2' :: '#' :: '0' :: 'x' :: hex =>
    if hex.length = 8 then (readNumber 16 hex).map (fun n => .pattern (BitVec.ofNat 32 n)) else none
  | '-' :: rest => readDecimal true rest
  | cs => readDecimal false cs

/-- A word of the line that is complete, if it has a character. -/
def flushWord (reversed : List Char) : List (List Char) := if reversed = [] then [] else [reversed.reverse]

/-- The words of a line: blanks separate them, a comma is one of its own, and "`;` starts a comment". -/
def splitWords : List Char → List Char → List (List Char)
  | [], word => flushWord word
  | c :: rest, word =>
    if c = ';' then flushWord word
    else if c = ' ' ∨ c = '\t' ∨ c = '\r' then flushWord word ++ splitWords rest []
    else if c = ',' then flushWord word ++ [','] :: splitWords rest []
    else splitWords rest (c :: word)

/-- "One command per line" (30_encoding.md R78): no command for an empty line, none at all where the line is not of R78's or
R79's form. -/
def readLine (text : List Char) : Option (List AsmLine) :=
  match splitWords text [] with
  | [] => some []
  | [m] =>
    if m = ['F', 'I', 'N', 'I', 'S', 'H'] then some [.finish]
    else if m = ['R', 'D', 'L', 'E', 'N'] then some [.rdlen]
    else if m = ['R', 'D', 'S', 'T', 'A', 'T'] then some [.rdstat]
    else if m = ['R', 'D', 'D', 'B', 'G'] then some [.rddbg]
    else none
  | [m, a] =>
    if m = ['S', 'T', 'A', 'R', 'T'] then (readFloat a).map (fun f => [.start f])
    else if m = ['S', 'A', 'M', 'P', 'L', 'E'] then (readFloat a).map (fun f => [.sample f])
    else if m = ['R', 'D', 'B', 'Y', 'T', 'E'] then (readInteger a).map (fun n => [.rdbyte n])
    else if m = ['.', 'w', 'o', 'r', 'd', '6', '4'] then (readHex a).map (fun h => [.word64 h])
    else none
  | [m, a, comma, b] =>
    if m = ['S', 'A', 'M', 'P', 'L', 'E', 'N'] ∧ comma = [','] then do
      let f ← readFloat a
      let n ← readInteger b
      pure [.sampleN f n]
    else none
  | _ => none

end Sys2Proof.Machine
end

