-- ==== Sys2Proof/Safety.lean ====
section
/-! DEFINITION. The terms claims use: the invariants of 10_state.md R34, runs of commands, error-free and complete conversions, the
decisions of a sample sequence, and what a correctly rounded result is. -/

namespace Sys2Proof.Machine

/-- A register value `G` may hold while `PHASE ≠ IDLE`: "finite and strictly positive" (10_state.md R25). -/
def positiveFinite (f : Binary32) : Bool := isFinite f && fgt f plusZero

/-- The conditions of 00_scope.md R6 in exact values, for the plain parameters of `p` and for `f` as `DB_TO_LINEAR`. -/
structure MeetsConditions (p : Params) (f : Binary32 → Binary32) : Prop where
  capacity : p.maxCapacity ≤ 2 ^ 32 - 1
  clamp : isFinite p.clampLimit = true ∧ 0 < signedUnitsOf p.clampLimit
  divisor : isFinite p.scaleDivisor = true ∧ 0 < signedUnitsOf p.scaleDivisor
  gainMin : isFinite p.gainDbMin = true ∧ signedUnitsOf p.gainDbMin ≤ 0
  gainMax : isFinite p.gainDbMax = true ∧ 0 ≤ signedUnitsOf p.gainDbMax
  gainInRange : ∀ g, isNaN g = false → fge g p.gainDbMin = true → fge p.gainDbMax g = true →
    isFinite (f g) = true ∧ 0 < signedUnitsOf (f g)
  gainAtZero : f 0x00000000 = 0x3F800000 ∧ f 0x80000000 = 0x3F800000

/-- The invariants of 10_state.md R34, with that of `G` (R25) and the canonical form of `OUT`. -/
structure Invariants (s : State) : Prop where
  /-- (I-a). -/
  delta_range : s.delta.toNat ≤ 63
  /-- (I-b). -/
  nbits_range : s.nbits.toNat ≤ 7
  /-- (I-c). -/
  length_bound : s.outLen.toNat ≤ s.config.params.maxCapacity
  /-- (I-d). -/
  written_iff : ∀ i, (memRead s.out i).isSome = true ↔ i < s.outLen.toNat
  /-- (I-e). -/
  full_no_partial : isFull s = true → s.phase = .encoding → s.nbits = 0
  /-- (I-f). -/
  done_aligned : s.phase = .done → s.outLen.toNat = s.config.params.maxCapacity ∨ s.outLen.toNat % 16 = 1
  /-- 10_state.md R25. -/
  gain_positive : s.phase ≠ .idle → positiveFinite s.g = true
  /-- `OUT` is in canonical form. -/
  out_canonical : Memory.wf s.out = true

/-- No error flag is set: the premise of claims about a run (60_exceptions.md R203). -/
def ErrorFree (s : State) : Prop := ∀ e, errFlag s e = false

/-- "A conversion is complete when `PHASE = DONE`" (70_reset_and_hazards.md R233). -/
def ConversionComplete (s : State) : Prop := s.phase = .done

/-- The value of the target's length field for a length `16k + 1` (30_encoding.md R77). DMENC does not output it. -/
def lengthField (length : Nat) : Nat := (length - 1) / 16

/-- A command that gives a response (30_encoding.md R75). -/
def isRead : Instr → Bool
  | .rdbyte _ => true
  | .rdlen => true
  | .rdstat => true
  | .rddbg => true
  | .start _ => false
  | .sample _ => false
  | .finish => false
  | .illegal _ => false

/-- Commands executed one after the other (20_memory.md R59), stopping at a fault or a refusal. -/
def runCommands : List Instr → State → Host.Outcome State Fault Refusal
  | [], s => .next s
  | i :: rest, s =>
    match exec i s with
    | .next t => runCommands rest t
    | .fault r => .fault r
    | .refused r => .refused r

/-- SAMPLE of each value in turn. -/
def samples (xs : List Binary32) : List Instr := xs.map Instr.sample

/-- The counter after a decision, in the words of 41_sample.md R128: up by one but at 63, down by one but at 0. -/
def counterAfter (bit : Bool) (n : Nat) : Nat :=
  if bit then (if n = 63 then 63 else n + 1) else (if n = 0 then 0 else n - 1)

/-- The decision bits `b_1, b_2, …` of a sample sequence (41_sample.md R126 to R128, R134), from the counter value `n` on. -/
def decisions (p : Params) (g : Binary32) : Nat → List Binary32 → List Bool
  | _, [] => []
  | n, x :: rest =>
    let bit := fge (fadd (fdiv (fmul (clampSample p x) g) p.scaleDivisor) 0x42000000) (floatOfNat n)
    bit :: decisions p g (counterAfter bit n) rest

/-- `Σ b_k · 2^k`, the first bit least significant (41_sample.md R134). -/
def bitsValue : List Bool → Nat
  | [] => 0
  | b :: rest => b.toNat + 2 * bitsValue rest

/-- A finite binary32 `r` is a nearest one to the exact `num / den` units of 2^-149, and even where another is as near. -/
def IsNearestEven (num : Int) (den : Nat) (r : Binary32) : Prop :=
  ∀ f : Binary32, isFinite f = true →
    (num - den * signedUnitsOf r).natAbs ≤ (num - den * signedUnitsOf f).natAbs
    ∧ ((num - den * signedUnitsOf r).natAbs = (num - den * signedUnitsOf f).natAbs →
        signedUnitsOf f ≠ signedUnitsOf r → f32Fraction r % 2 = 0)

/-- What IEEE 754 gives for the exact `num / den` units of 2^-149, to nearest, ties to even: a finite nearest value, or an
infinity of the exact value's sign where the magnitude is at least half a last place past the largest finite one. -/
def CorrectlyRounded (num : Int) (den : Nat) (r : Binary32) : Prop :=
  if den * ((2 ^ 25 - 1) * 2 ^ 252) ≤ num.natAbs then isInfinite r = true ∧ (f32Sign r = true ↔ num < 0)
  else isFinite r = true ∧ IsNearestEven num den r

/-- A result that is an infinity with the given sign. -/
def IsInfinityOf (sign : Bool) (r : Binary32) : Prop := isInfinite r = true ∧ f32Sign r = sign

/-- A result that is a zero with the given sign. -/
def IsZeroOf (sign : Bool) (r : Binary32) : Prop := isZero r = true ∧ f32Sign r = sign

/-- A state with the four error flags cleared, to compare states apart from them. -/
def withoutFlags (s : State) : State :=
  { s with errIllegal := false, errProtocol := false, errDomain := false, errRange := false }

end Sys2Proof.Machine
end

