-- ==== Sys2Proof/Certificates/Slice0/Obligations.lean ====
section
/-! DEFINITION. The statements for the provers. -/

open Sys2Proof Sys2Proof.Machine

/-! ### Encoding -/

/-- 30_encoding.md R74, R78: no bit of an encoding is dropped. -/
def Obligations.EncodedInstructionsDecodeBack : Prop :=
  ∀ i : Instr, i.wellFormed = true → decode (encode i) = i

/-- 30_encoding.md R74: each of the 2^64 words has one meaning, and it is a well-formed instruction. -/
def Obligations.DecodedWordsEncodeBack : Prop :=
  ∀ w : CommandWord, (decode w).wellFormed = true ∧ encode (decode w) = w

/-- 30_encoding.md R73, with the fields read as numbers: the three illegal cases, what an illegal word does, and that every other
word is a command. (R73 counts "eight legal commands" where R72 lists seven: log 11.) -/
def Obligations.IllegalWordsAreTheThreeCases : Prop :=
  ∀ w : CommandWord,
    let op := w.toNat / 2 ^ 60
    let rsv := w.toNat / 2 ^ 32 % 2 ^ 28
    let opnd := w.toNat % 2 ^ 32
    let isIllegal := (op = 0 ∨ 8 ≤ op) ∨ rsv ≠ 0 ∨ ((op = 3 ∨ op = 5 ∨ op = 6 ∨ op = 7) ∧ opnd ≠ 0)
    (isIllegal → decode w = .illegal w ∧ ∀ s : State, exec (decode w) s = .next { s with errIllegal := true })
    ∧ (¬ isIllegal → ∀ v, decode w ≠ .illegal v)

/-- 30_encoding.md R71, R72: each opcode of the map with its operand read whole. -/
def Obligations.OpcodeMapReadsTheOperandWhole : Prop :=
  (∀ opnd : BitVec 32,
    decode (BitVec.ofNat 64 (1 * 2 ^ 60 + opnd.toNat)) = .start opnd
    ∧ decode (BitVec.ofNat 64 (2 * 2 ^ 60 + opnd.toNat)) = .sample opnd
    ∧ decode (BitVec.ofNat 64 (4 * 2 ^ 60 + opnd.toNat)) = .rdbyte opnd)
  ∧ decode 0x3000000000000000 = .finish
  ∧ decode 0x5000000000000000 = .rdlen
  ∧ decode 0x6000000000000000 = .rdstat
  ∧ decode 0x7000000000000000 = .rddbg

/-- Every worked word of 30_encoding.md section 7 and of 95_test_vectors.md V-D4 to V-D10, and the remaining operand-less ones. -/
def Obligations.WorkedWordsDecode : Prop :=
  decode 0x1000000000000000 = .start 0x00000000
  ∧ decode 0x2000000000000000 = .sample 0x00000000
  ∧ decode 0x2000000044800000 = .sample 0x44800000
  ∧ decode 0x20000000C4000000 = .sample 0xC4000000
  ∧ decode 0x2000000047000000 = .sample 0x47000000
  ∧ decode 0x20000000C7000000 = .sample 0xC7000000
  ∧ decode 0x200000007FC00000 = .sample 0x7FC00000
  ∧ decode 0x3000000000000000 = .finish
  ∧ decode 0x4000000000000010 = .rdbyte 16
  ∧ decode 0x40000000FFFFFFFF = .rdbyte 0xFFFFFFFF
  ∧ decode 0x5000000000000000 = .rdlen
  ∧ decode 0x6000000000000000 = .rdstat
  ∧ decode 0x7000000000000000 = .rddbg
  ∧ decode 0x0000000000000000 = .illegal 0x0000000000000000
  ∧ decode 0x8000000000000000 = .illegal 0x8000000000000000
  ∧ decode 0xF000000000000000 = .illegal 0xF000000000000000
  ∧ decode 0x2000000100000000 = .illegal 0x2000000100000000
  ∧ decode 0x3000000000000001 = .illegal 0x3000000000000001
  ∧ decode 0x6000000080000000 = .illegal 0x6000000080000000

/-- 30_encoding.md R78, R79: the words of each line of assembly decode to the commands the line names, and `bits(<f>)` is the
nearest binary32, ties to even, of a decimal literal, the infinity named, or the pattern itself. (What lies past the largest
finite value is IEEE 754's, log 10; a minus sign on a zero, and a SAMPLEN count of 2^32 or more, are the model's choice, log 17.) -/
def Obligations.AssembledLinesDecodeBack : Prop :=
  (∀ f, assembleLine (.start f) = some [encode (.start (floatBits f))]
    ∧ decode (encode (.start (floatBits f))) = .start (floatBits f))
  ∧ (∀ f n, 1 ≤ n → ∃ ws, assembleLine (.sampleN f n) = some ws
      ∧ ws.map decode = List.replicate n (.sample (floatBits f))
      ∧ ∃ w, assembleLine (.sample f) = some [w] ∧ ws = List.replicate n w)
  ∧ (∀ n < 2 ^ 32, ∃ w, assembleLine (.rdbyte n) = some [w] ∧ ∃ index : BitVec 32, decode w = .rdbyte index ∧ index.toNat = n)
  ∧ (∀ h < 2 ^ 64, ∃ w : CommandWord, assembleLine (.word64 h) = some [w] ∧ w.toNat = h)
  ∧ assembleLine .finish = some [0x3000000000000000]
  ∧ assembleLine .rdlen = some [0x5000000000000000]
  ∧ assembleLine .rdstat = some [0x6000000000000000]
  ∧ assembleLine .rddbg = some [0x7000000000000000]
  ∧ (∀ (negative : Bool) (digits fractionDigits : Nat),
      CorrectlyRounded ((if negative then -1 else 1) * ((digits : Int) * 2 ^ 149)) (10 ^ fractionDigits)
        (floatBits (.decimal negative digits fractionDigits))
      ∧ f32Sign (floatBits (.decimal negative digits fractionDigits)) = negative)
  ∧ (∀ negative, IsInfinityOf negative (floatBits (.infinity negative)))
  ∧ (∀ bits, floatBits (.pattern bits) = bits)

/-! ### Configuration and arithmetic -/

/-- 00_scope.md R6: every configuration meets the conditions, its own `DB_TO_LINEAR` included, and parameters make a configuration
exactly where they meet them. -/
def Obligations.ConfigurationsMeetTheConditions : Prop :=
  (∀ c : Config, MeetsConditions c.params c.params.dbToLinear)
  ∧ ∀ p : Params, (∃ c : Config, Config.ofParams p = some c ∧ c.params = p) ↔ MeetsConditions p p.dbToLinear

/-- 00_scope.md R5, R6, 92_eei_decisions.md D10: `DB_TO_LINEAR` is a parameter of the instance, and every function that meets R6
beside the plain parameters is that of some configuration. (That a table holds the function is the model's form, log 5.) -/
def Obligations.EveryGainFunctionIsConfigured : Prop :=
  ∀ (p : Params) (f : Binary32 → Binary32), MeetsConditions p f →
    ∃ c : Config, c.params = { p with gainTable := c.params.gainTable } ∧ c.params.dbToLinear = f

/-- 00_scope.md R10: `fmul` on every pair of operands. Of finite ones it is the exact product rounded once; the result's sign, that of
a zero too, is the product of the signs; an infinity stays one but against a zero, and that and a NaN operand give a NaN. The
meaning of the patterns is IEEE 754's (log 10). -/
def Obligations.MultiplicationIsCorrectlyRounded : Prop :=
  ∀ a b : Binary32,
    let sign := f32Sign a != f32Sign b
    (isFinite a = true → isFinite b = true →
      CorrectlyRounded (signedUnitsOf a * signedUnitsOf b) (2 ^ 149) (fmul a b) ∧ f32Sign (fmul a b) = sign)
    ∧ (isInfinite a = true → isNaN b = false → isZero b = false → IsInfinityOf sign (fmul a b))
    ∧ (isInfinite b = true → isNaN a = false → isZero a = false → IsInfinityOf sign (fmul a b))
    ∧ (isInfinite a = true ∧ isZero b = true ∨ isZero a = true ∧ isInfinite b = true ∨ isNaN a = true ∨ isNaN b = true →
        isNaN (fmul a b) = true)

/-- 00_scope.md R10: `fdiv` on every pair of operands. Of finite ones, the divisor not zero, it is the exact quotient rounded once; an
infinite dividend keeps its infinity (41_sample.md R125, R126), an infinite divisor gives a zero, a zero divisor an infinity; the
result's sign is the quotient of the signs; the invalid pairs and a NaN operand give a NaN (log 10). -/
def Obligations.DivisionIsCorrectlyRounded : Prop :=
  ∀ a b : Binary32,
    let sign := f32Sign a != f32Sign b
    (isFinite a = true → isFinite b = true → isZero b = false →
      CorrectlyRounded (signedUnitsOf a * 2 ^ 149 * (if f32Sign b then -1 else 1)) (unitsOf b) (fdiv a b)
      ∧ f32Sign (fdiv a b) = sign)
    ∧ (isInfinite a = true → isFinite b = true → IsInfinityOf sign (fdiv a b))
    ∧ (isFinite a = true → isInfinite b = true → IsZeroOf sign (fdiv a b))
    ∧ (isFinite a = true → isZero a = false → isZero b = true → IsInfinityOf sign (fdiv a b))
    ∧ (isInfinite a = true ∧ isInfinite b = true ∨ isZero a = true ∧ isZero b = true ∨ isNaN a = true ∨ isNaN b = true →
        isNaN (fdiv a b) = true)

/-- 00_scope.md R10: `fadd` on every pair of operands. Of finite ones it is the exact sum rounded once, with the sum's sign, and an
exact zero is `-0.0` only where both operands carry the minus sign; an infinite operand is the result but against the opposite
infinity, and that and a NaN operand give a NaN (log 10). -/
def Obligations.AdditionIsCorrectlyRounded : Prop :=
  ∀ a b : Binary32,
    (isFinite a = true → isFinite b = true →
      CorrectlyRounded (signedUnitsOf a + signedUnitsOf b) 1 (fadd a b)
      ∧ f32Sign (fadd a b) = (if signedUnitsOf a + signedUnitsOf b = 0 then f32Sign a && f32Sign b
          else decide (signedUnitsOf a + signedUnitsOf b < 0)))
    ∧ (isInfinite a = true → isFinite b = true ∨ b = a → fadd a b = a)
    ∧ (isInfinite b = true → isFinite a = true → fadd a b = b)
    ∧ (isInfinite a = true ∧ isInfinite b = true ∧ f32Sign a ≠ f32Sign b ∨ isNaN a = true ∨ isNaN b = true →
        isNaN (fadd a b) = true)

/-- 00_scope.md R10: the ordered comparisons follow the exact values, `+∞` and `-∞` lie outside every finite value, and a NaN
operand makes each comparison false (log 10). -/
def Obligations.ComparisonsFollowTheValues : Prop :=
  (∀ a b : Binary32, isFinite a = true → isFinite b = true →
    (fge a b = true ↔ signedUnitsOf b ≤ signedUnitsOf a)
    ∧ (fgt a b = true ↔ signedUnitsOf b < signedUnitsOf a)
    ∧ (flt a b = true ↔ signedUnitsOf a < signedUnitsOf b))
  ∧ (∀ a : Binary32, isFinite a = true → fgt 0x7F800000 a = true ∧ flt 0xFF800000 a = true)
  ∧ (∀ a b : Binary32, isNaN a = true ∨ isNaN b = true → fge a b = false ∧ fgt a b = false ∧ flt a b = false)

/-! ### START -/

/-- 40_start.md R104, R105: START with a gain in the range is accepted in every phase and leaves this state; the old bytes can no
longer be read. -/
def Obligations.AcceptedStartBeginsAConversion : Prop :=
  ∀ (gainDb : Binary32) (s : State), isNaN gainDb = false → flt gainDb s.config.params.gainDbMin = false →
    fgt gainDb s.config.params.gainDbMax = false →
    ∃ t : State,
      exec (.start gainDb) s = .next t
      ∧ t = { s with
          g := s.config.params.dbToLinear gainDb, delta := 32, acc := 0x00, nbits := 0, outLen := 0, out := [], phase := .encoding }
      ∧ (∀ a, memRead t.out a = none)
      ∧ ∀ index, ∃ u : State, exec (.rdbyte index) t = .next u ∧ u.errRange = true

/-- 40_start.md R101: a NaN, a gain outside the range and both infinities raise ERR_DOMAIN and change nothing else. -/
def Obligations.StartOutsideTheGainRangeRaises : Prop :=
  ∀ (gainDb : Binary32) (s : State),
    (isNaN gainDb = true ∨ flt gainDb s.config.params.gainDbMin = true ∨ fgt gainDb s.config.params.gainDbMax = true →
      exec (.start gainDb) s = .next { s with errDomain := true })
    ∧ exec (.start 0x7F800000) s = .next { s with errDomain := true }
    ∧ exec (.start 0xFF800000) s = .next { s with errDomain := true }

/-- 40_start.md R103, R106: ±0 dB is accepted under every configuration and gives G = 1.0; both bounds are accepted. -/
def Obligations.StartAcceptsZeroAndBothBounds : Prop :=
  ∀ s : State,
    (∃ t, exec (.start 0x00000000) s = .next t ∧ t.phase = .encoding ∧ t.g = 0x3F800000)
    ∧ (∃ t, exec (.start 0x80000000) s = .next t ∧ t.phase = .encoding ∧ t.g = 0x3F800000)
    ∧ (∃ t, exec (.start s.config.params.gainDbMin) s = .next t ∧ t.phase = .encoding
        ∧ t.g = s.config.params.dbToLinear s.config.params.gainDbMin)
    ∧ (∃ t, exec (.start s.config.params.gainDbMax) s = .next t ∧ t.phase = .encoding
        ∧ t.g = s.config.params.dbToLinear s.config.params.gainDbMax)

/-- 10_state.md R24, 40_start.md R106: an accepted START leaves no trace of the earlier conversion, and a START before it that
was accepted too changes nothing. -/
def Obligations.AcceptedStartForgetsTheEarlierConversion : Prop :=
  ∀ (gainDb first : Binary32) (s : State), gainAccepted s.config.params gainDb = true →
    gainAccepted s.config.params first = true →
    (∀ ph gg d a n l o,
      exec (.start gainDb) { s with phase := ph, g := gg, delta := d, acc := a, nbits := n, outLen := l, out := o }
        = exec (.start gainDb) s)
    ∧ runCommands [.start first, .start gainDb] s = exec (.start gainDb) s
    ∧ ∃ t, exec (.start gainDb) s = .next t ∧ t.phase = .encoding

/-! ### SAMPLE -/

/-- 41_sample.md R123. -/
def Obligations.SampleOutsideAConversionRaises : Prop :=
  ∀ (x : Binary32) (s : State), s.phase ≠ .encoding → exec (.sample x) s = .next { s with errProtocol := true }

/-- 41_sample.md R122: every sample, a NaN too. -/
def Obligations.SampleAtCapacityHasNoEffect : Prop :=
  ∀ (x : Binary32) (s : State), s.phase = .encoding → s.outLen.toNat = s.config.params.maxCapacity →
    exec (.sample x) s = .next s

/-- 41_sample.md R121. -/
def Obligations.NaNSampleRaises : Prop :=
  ∀ (x : Binary32) (s : State), s.phase = .encoding → s.outLen.toNat < s.config.params.maxCapacity → isNaN x = true →
    exec (.sample x) s = .next { s with errDomain := true }

/-- 41_sample.md R128, R131 (with R124 to R127 and R130 for the bit and `ACC`): an accepted sample steps the counter, packs its
bit, and on the eighth appends `ACC` at `OUT_LEN`; every other register and byte keeps its value. -/
def Obligations.AcceptedSampleEncodesOneBit : Prop :=
  ∀ (x : Binary32) (s : State), s.phase = .encoding → s.outLen.toNat < s.config.params.maxCapacity → isNaN x = false →
    let p := s.config.params
    let c := if fgt x p.clampLimit then p.clampLimit
      else if flt x (fneg p.clampLimit) then fneg p.clampLimit else x
    let bit := fge (fadd (fdiv (fmul c s.g) p.scaleDivisor) 0x42000000) (floatOfNat s.delta.toNat)
    ∃ t : State,
      exec (.sample x) s = .next t
      ∧ t.delta.toNat = counterAfter bit s.delta.toNat
      ∧ t.acc.toNat = s.acc.toNat / 2 + 128 * bit.toNat
      ∧ (s.nbits.toNat = 7 → t.nbits = 0 ∧ t.outLen.toNat = s.outLen.toNat + 1
          ∧ memRead t.out s.outLen.toNat = some t.acc
          ∧ ∀ a, a ≠ s.outLen.toNat → memRead t.out a = memRead s.out a)
      ∧ (s.nbits.toNat ≠ 7 → t.nbits.toNat = s.nbits.toNat + 1 ∧ t.outLen = s.outLen
          ∧ ∀ a, memRead t.out a = memRead s.out a)
      ∧ t = { s with delta := t.delta, acc := t.acc, nbits := t.nbits, outLen := t.outLen, out := t.out }

/-- 41_sample.md R124: the clamp selects `x`, `+CLAMP_LIMIT` or `-CLAMP_LIMIT`, and the result is finite and in the range. -/
def Obligations.ClampSelectsTheNearestBound : Prop :=
  ∀ (c : Config) (x : Binary32), isNaN x = false →
    (fgt x c.params.clampLimit = true → clampSample c.params x = c.params.clampLimit)
    ∧ (flt x (fneg c.params.clampLimit) = true → clampSample c.params x = fneg c.params.clampLimit)
    ∧ (fgt x c.params.clampLimit = false → flt x (fneg c.params.clampLimit) = false → clampSample c.params x = x)
    ∧ isFinite (clampSample c.params x) = true
    ∧ (signedUnitsOf (clampSample c.params x)).natAbs ≤ unitsOf c.params.clampLimit
    ∧ clampSample c.params 0x7F800000 = c.params.clampLimit
    ∧ clampSample c.params 0xFF800000 = fneg c.params.clampLimit

/-- 41_sample.md R129 (and R125 for `y`): no step of an accepted sample gives a NaN. -/
def Obligations.ScaledSampleIsNeverNaN : Prop :=
  ∀ (c : Config) (g x : Binary32), positiveFinite g = true → isNaN x = false →
    isNaN (gainedSample c.params g x) = false
    ∧ isNaN (fdiv (gainedSample c.params g x) c.params.scaleDivisor) = false
    ∧ isNaN (scaledSample c.params g x) = false

/-- 41_sample.md R125 to R127, 95_test_vectors.md V-S18: where `|c| · G` overflows, the scaled sample is that same infinity, so `+∞`
decides 1 and `-∞` decides 0 at every counter value. -/
def Obligations.OverflowedSampleKeepsItsInfinity : Prop :=
  ∀ (c : Config) (g x : Binary32) (d : BitVec 6), isInfinite (gainedSample c.params g x) = true →
    scaledSample c.params g x = gainedSample c.params g x
    ∧ decisionBit c.params g d x = !f32Sign (gainedSample c.params g x)

/-- 41_sample.md R127: `float(DELTA)` is exact, equality decides 1, `+∞` decides 1 and `-∞` decides 0, at every counter value. -/
def Obligations.DecisionAtEqualityAndInfinity : Prop :=
  ∀ d : BitVec 6,
    isFinite (floatOfNat d.toNat) = true ∧ signedUnitsOf (floatOfNat d.toNat) = d.toNat * 2 ^ 149
    ∧ fge (floatOfNat d.toNat) (floatOfNat d.toNat) = true
    ∧ fge 0x7F800000 (floatOfNat d.toNat) = true
    ∧ fge 0xFF800000 (floatOfNat d.toNat) = false

/-- 41_sample.md R136, its first two cases: `-0.0` behaves as `+0.0` and `±∞` as `±CLAMP_LIMIT`, in every state that meets the
invariants. -/
def Obligations.MinusZeroAndInfiniteSamples : Prop :=
  ∀ s : State, Invariants s →
    exec (.sample 0x80000000) s = exec (.sample 0x00000000) s
    ∧ exec (.sample 0x7F800000) s = exec (.sample s.config.params.clampLimit) s
    ∧ exec (.sample 0xFF800000) s = exec (.sample (fneg s.config.params.clampLimit)) s

/-- 41_sample.md R137: constant input at the counter's own integer level alternates 1 and 0 up to 62, stays at 1 at 63, and
silence makes the byte 0x55 at any gain. -/
def Obligations.ConstantInputAlternates : Prop :=
  (∀ (x : Binary32) (s : State) (n : Nat), s.phase = .encoding → s.outLen.toNat < s.config.params.maxCapacity →
    isNaN x = false → scaledSample s.config.params s.g x = floatOfNat n → s.delta.toNat = n →
    ∃ t : State, exec (.sample x) s = .next t ∧ t.acc.getLsbD 7 = true
      ∧ (n = 63 → t.delta.toNat = 63)
      ∧ (n ≤ 62 → t.delta.toNat = n + 1
          ∧ (t.outLen.toNat < t.config.params.maxCapacity →
              ∃ u : State, exec (.sample x) t = .next u ∧ u.acc.getLsbD 7 = false ∧ u.delta.toNat = n)))
  ∧ (∀ s : State, s.phase = .encoding → s.outLen.toNat < s.config.params.maxCapacity → positiveFinite s.g = true →
    s.delta = 32 → s.nbits = 0 →
    ∃ t : State, runCommands (samples (List.replicate 8 0x00000000)) s = .next t
      ∧ memRead t.out s.outLen.toNat = some 0x55 ∧ t.outLen.toNat = s.outLen.toNat + 1 ∧ t.delta = 32 ∧ t.nbits = 0)

/-- 41_sample.md R133: after eight accepted samples from a byte boundary, with any NaN samples among them, the whole state is the
same whatever `ACC` was. -/
def Obligations.EarlierBitsReachNoLaterByte : Prop :=
  ∀ (xs : List Binary32) (a : Byte) (s : State), s.phase = .encoding → s.outLen.toNat < s.config.params.maxCapacity →
    s.nbits = 0 → (xs.filter (fun x => !isNaN x)).length = 8 →
    ∃ t : State, runCommands (samples xs) s = .next t ∧ runCommands (samples xs) { s with acc := a } = .next t
      ∧ t.outLen.toNat = s.outLen.toNat + 1

/-- 41_sample.md R134, R135: after START and any samples, byte `j` holds the decisions of the accepted samples `8j + 1` to `8j + 8`,
first in bit 0; NaN samples are not counted, and samples past the capacity are dropped. The bits of an incomplete group stand in
the top of `ACC` alone, and FINISH discards them: after it every byte is a coded byte or a filler byte. -/
def Obligations.CodedBytesHoldTheDecisions : Prop :=
  ∀ (gainDb : Binary32) (xs : List Binary32) (s : State), gainAccepted s.config.params gainDb = true →
    let ys := xs.filter (fun x => !isNaN x)
    let bits := decisions s.config.params (s.config.params.dbToLinear gainDb) 32 ys
    ∃ t u : State, runCommands (.start gainDb :: samples xs) s = .next t ∧ exec .finish t = .next u
      ∧ t.phase = .encoding
      ∧ t.outLen.toNat = min s.config.params.maxCapacity (ys.length / 8)
      ∧ (t.outLen.toNat < s.config.params.maxCapacity → t.nbits.toNat = ys.length % 8
          ∧ t.acc.toNat / 2 ^ (8 - t.nbits.toNat) = bitsValue (bits.drop (8 * t.outLen.toNat)))
      ∧ (t.outLen.toNat = s.config.params.maxCapacity → t.nbits = 0)
      ∧ (∀ j, memRead t.out j
          = if j < t.outLen.toNat then some (BitVec.ofNat 8 (bitsValue ((bits.drop (8 * j)).take 8))) else none)
      ∧ ∀ j, memRead u.out j
          = if j < t.outLen.toNat then memRead t.out j else if j < u.outLen.toNat then some 0xAA else none

/-! ### FINISH -/

/-- 42_finish.md R161. -/
def Obligations.FinishIsAcceptedOnlyWhileEncoding : Prop :=
  ∀ s : State,
    (s.phase ≠ .encoding → exec .finish s = .next { s with errProtocol := true })
    ∧ (s.phase = .encoding → ∃ t : State, exec .finish s = .next t ∧ t.phase = .done)

/-- 42_finish.md R164 (with R162, R163): the final length, the filler bytes and their number; every other byte and register but
`PHASE` keeps its value. -/
def Obligations.FinishPadsToTheClosedForm : Prop :=
  ∀ s : State, s.phase = .encoding →
    ∃ t : State, exec .finish s = .next t
      ∧ t.outLen.toNat
          = (if s.config.params.maxCapacity ≤ s.outLen.toNat then s.outLen.toNat
             else min s.config.params.maxCapacity (s.outLen.toNat + ((1 - (s.outLen.toNat : Int)) % 16).toNat))
      ∧ s.outLen.toNat ≤ t.outLen.toNat ∧ t.outLen.toNat ≤ s.outLen.toNat + 15
      ∧ (∀ i, s.outLen.toNat ≤ i → i < t.outLen.toNat → memRead t.out i = some 0xAA)
      ∧ (∀ i, i < s.outLen.toNat ∨ t.outLen.toNat ≤ i → memRead t.out i = memRead s.out i)
      ∧ t = { s with out := t.out, outLen := t.outLen, phase := .done }

/-- 42_finish.md R165, 30_encoding.md R77. -/
def Obligations.FinishedLengthIsAligned : Prop :=
  ∀ s : State, Invariants s → s.phase = .encoding →
    ∃ t : State, exec .finish s = .next t
      ∧ (t.outLen.toNat = s.config.params.maxCapacity ∨ t.outLen.toNat % 16 = 1)
      ∧ (t.outLen.toNat % 16 = 1 → t.outLen.toNat = 16 * lengthField t.outLen.toNat + 1)

/-- 42_finish.md R167, R166: the length of a whole conversion, and the one filler byte of a conversion with no complete byte. -/
def Obligations.WholeConversionLength : Prop :=
  ∀ (gainDb : Binary32) (xs : List Binary32) (s : State), gainAccepted s.config.params gainDb = true →
    let cap := s.config.params.maxCapacity
    let n0 := min cap ((xs.filter (fun x => !isNaN x)).length / 8)
    ∃ t : State, runCommands (.start gainDb :: samples xs ++ [.finish]) s = .next t
      ∧ t.phase = .done
      ∧ t.outLen.toNat = min cap (n0 + ((1 - (n0 : Int)) % 16).toNat)
      ∧ (n0 = 0 → 1 ≤ cap → t.outLen = 1 ∧ t.out = [(0, 0xAA)])
      ∧ (t.outLen = 0 ↔ cap = 0)

/-! ### Readout -/

/-- 43_readout.md R180: below `OUT_LEN`, in every phase. -/
def Obligations.RdbyteBelowTheLengthReadsTheByte : Prop :=
  ∀ (index : BitVec 32) (s : State), Invariants s → index.toNat < s.outLen.toNat →
    ∃ b : Byte, memRead s.out index.toNat = some b
      ∧ exec (.rdbyte index) s = .next { s with responses := s.responses ++ [b.setWidth 32] }

/-- 43_readout.md R181: at or above `OUT_LEN` ERR_RANGE is set and one unconstrained response is given; index 0xFFFFFFFF is so in
every state (95_test_vectors.md V-D4). That the response is `Config.freeResponse` at the counter `draws`, and that the counter
advances, is the model's choice (log 6). -/
def Obligations.RdbyteAtOrAboveTheLengthRaises : Prop :=
  ∀ (index : BitVec 32) (s : State), s.outLen.toNat ≤ index.toNat ∨ index = 0xFFFFFFFF →
    exec (.rdbyte index) s
      = .next { s with
          errRange := true, draws := s.draws + 1, responses := s.responses ++ [Config.freeResponse s.draws] }

/-- 20_memory.md R52: MemRead "is defined only for `i < OUT_LEN`", where each byte is written; where a state holds an UNWRITTEN byte
there, which (I-d) rules out, RDBYTE stops (the model's choice, log 7). -/
def Obligations.RdbyteOfAnUnwrittenByteFaults : Prop :=
  ∀ (index : BitVec 32) (s : State), index.toNat < s.outLen.toNat → memRead s.out index.toNat = none →
    exec (.rdbyte index) s = .fault .unwrittenByte

/-- 43_readout.md R183. -/
def Obligations.RdlenRespondsTheLength : Prop :=
  ∀ s : State, exec .rdlen s = .next { s with responses := s.responses ++ [s.outLen] }

/-- 43_readout.md R184, the status word as a sum of its bits; bits 31..8 are 0. -/
def Obligations.RdstatRespondsTheStatusWord : Prop :=
  ∀ s : State,
    let full := decide (s.outLen.toNat = s.config.params.maxCapacity)
    let ready := decide (s.phase = .encoding) && !full
    let phase := match s.phase with
      | .idle => 0
      | .encoding => 1
      | .done => 2
    ∃ v : Response, exec .rdstat s = .next { s with responses := s.responses ++ [v] }
      ∧ v.toNat = phase + 4 * full.toNat + 8 * ready.toNat + 16 * s.errIllegal.toNat + 32 * s.errProtocol.toNat
          + 64 * s.errDomain.toNat + 128 * s.errRange.toNat

/-- 43_readout.md R185, the debug word as a sum of its fields. -/
def Obligations.RddbgRespondsTheDeltaState : Prop :=
  ∀ s : State,
    ∃ v : Response, exec .rddbg s = .next { s with responses := s.responses ++ [v] }
      ∧ v.toNat = s.acc.toNat + 2 ^ 8 * s.delta.toNat + 2 ^ 16 * s.nbits.toNat

/-- 20_memory.md R58: a read changes no register, no flag and no byte, but ERR_RANGE for an index out of range, and repeated at
once it gives the same response unless that response is a free one. -/
def Obligations.ReadsHaveNoSideEffects : Prop :=
  ∀ (i : Instr) (s t : State), isRead i = true → exec i s = .next t →
    ∃ v : Response,
      t = { s with responses := s.responses ++ [v], errRange := t.errRange, draws := t.draws }
      ∧ (∀ a, memRead t.out a = memRead s.out a)
      ∧ ((∃ index, i = .rdbyte index ∧ s.outLen.toNat ≤ index.toNat ∧ t.errRange = true)
          ∨ (t.errRange = s.errRange ∧ t.draws = s.draws
              ∧ ∃ u : State, exec i t = .next u ∧ u.responses = t.responses ++ [v]))

/-! ### The machine -/

/-- One step executes the command the host issues, and only takes it off the inputs (20_memory.md R57, R59; log 1). -/
def Obligations.StepRunsTheDecodedCommand : Prop :=
  ∀ (s : State) (rest : List HostInput), s.wasReset = true →
    (∀ w, s.inputs = .command w :: rest → step s = exec (decode w) { s with inputs := rest })
    ∧ (∀ i : Instr, i.wellFormed = true → s.inputs = .command (encode i) :: rest →
        step s = exec i { s with inputs := rest })

/-- The model's own convention (log 14, log 15): `withFetchWord` places the word so that the very next step runs it. -/
def Obligations.FetchedWordRunsNext : Prop :=
  ∀ (s : State) (nbits w : Nat), nbits ≤ 64 →
    ∃ i : Instr, decodeTableWord nbits w = some i
      ∧ step (s.withFetchWord nbits w) = exec i { s with wasReset := true }

/-- 60_exceptions.md R210, and taking a response (log 8): with nothing pending the block holds its state; the host takes the
oldest response and nothing else changes. -/
def Obligations.IdleBlockHoldsItsState : Prop :=
  (∀ s : State, s.inputs = [] → step s = .next s)
  ∧ (∀ (s : State) (rest : List HostInput), s.wasReset = true → s.inputs = .takeResponse :: rest →
      step s = .next { s with inputs := rest, responses := s.responses.tail })

/-- 70_reset_and_hazards.md R230: RESET in any state; what `G` becomes is not said. -/
def Obligations.ResetGivesTheResetValues : Prop :=
  ∀ (s : State) (rest : List HostInput), s.inputs = .reset :: rest →
    ∃ t : State, step s = .next t
      ∧ t.phase = .idle ∧ t.delta = 32 ∧ t.acc = 0x00 ∧ t.nbits = 0 ∧ t.outLen = 0
      ∧ (∀ i, memRead t.out i = none)
      ∧ ErrorFree t
      ∧ t.responses = []
      ∧ (isFull t = true ↔ t.config.params.maxCapacity = 0) ∧ inReady t = false

/-- 70_reset_and_hazards.md R231: before the first RESET a command is refused; RESET is what ends that. (Refusing to take a
response there too is the model's choice, log 2.) -/
def Obligations.NothingRunsBeforeTheFirstReset : Prop :=
  ∀ (s : State) (rest : List HostInput), s.wasReset = false →
    (∀ w, s.inputs = .command w :: rest → step s = .refused .beforeFirstReset)
    ∧ (s.inputs = .takeResponse :: rest → step s = .refused .beforeFirstReset)
    ∧ (s.inputs = .reset :: rest → ∃ t : State, step s = .next t ∧ t.wasReset = true)

/-- 10_state.md R34 "and after RESET": the invariants hold in the reset state and after RESET in any state. -/
def Obligations.ResetEstablishesTheInvariants : Prop :=
  Invariants State.reset
  ∧ ∀ (s : State) (rest : List HostInput), s.inputs = .reset :: rest → ∃ t : State, step s = .next t ∧ Invariants t

/-- 10_state.md R34: from every state that meets the invariants, each step, whatever the host does, gives one that meets them. -/
def Obligations.EveryStepKeepsTheInvariants : Prop :=
  ∀ s t : State, Invariants s → step s = .next t → Invariants t

/-- From every state that meets the invariants each command completes, and after a RESET so does each step. -/
def Obligations.EveryCommandCompletes : Prop :=
  ∀ s : State, Invariants s →
    (∀ i : Instr, ∃ t, exec i s = .next t) ∧ (s.wasReset = true → ∃ t, step s = .next t)

/-- 10_state.md R26: the only transitions of PHASE. -/
def Obligations.PhaseChangesOnlyAsListed : Prop :=
  ∀ s t : State, step s = .next t →
    (∃ rest, s.inputs = .reset :: rest ∧ t.phase = .idle)
    ∨ (∃ w rest gainDb, s.inputs = .command w :: rest ∧ decode w = .start gainDb
        ∧ gainAccepted s.config.params gainDb = true ∧ t.phase = .encoding)
    ∨ (∃ w rest, s.inputs = .command w :: rest ∧ decode w = .finish ∧ s.phase = .encoding ∧ t.phase = .done)
    ∨ t.phase = s.phase

/-- 60_exceptions.md R203: only RESET clears a flag. -/
def Obligations.FlagsAreStickyUntilReset : Prop :=
  ∀ (s t : State) (e : ErrFlag), errFlag s e = true → step s = .next t →
    errFlag t e = true ∨ ∃ rest, s.inputs = .reset :: rest

/-- 60_exceptions.md R201, R205: a command sets at most one flag, and one that sets a flag changes nothing else but the one
response of RDBYTE. -/
def Obligations.ErrorsArePreciseAndSingle : Prop :=
  ∀ (i : Instr) (s t : State) (e : ErrFlag), exec i s = .next t → errFlag s e = false → errFlag t e = true →
    (∀ e', errFlag t e' = true → errFlag s e' = true ∨ e' = e)
    ∧ ((e ≠ .range ∧ t = raise e s)
      ∨ (e = .range ∧ (∃ index, i = .rdbyte index)
          ∧ ∃ v, t = { raise e s with responses := s.responses ++ [v], draws := s.draws + 1 }))

/-- 60_exceptions.md R202: with any flags set, a command does what it does with none, the flags apart; RDSTAT's response is the
one place that shows them. -/
def Obligations.SetFlagsChangeNoCommand : Prop :=
  ∀ (i : Instr) (s t : State) (a b c d : Bool), exec i s = .next t →
    ∃ u : State,
      exec i { s with errIllegal := a, errProtocol := b, errDomain := c, errRange := d } = .next u
      ∧ (i ≠ .rdstat → withoutFlags u = withoutFlags t)
      ∧ (i = .rdstat → { withoutFlags u with responses := [] } = { withoutFlags t with responses := [] })

/-- 10_state.md R25: what `G` held in IDLE reaches nothing: a command leaves the same state, but for `G` itself while PHASE stays
IDLE. -/
def Obligations.GainIsNotObservableInIdle : Prop :=
  ∀ (i : Instr) (s t : State) (g : Binary32), s.phase = .idle → exec i s = .next t →
    (t.phase = .encoding ∧ exec i { s with g := g } = .next t)
    ∨ (t.phase = .idle ∧ t.g = s.g ∧ exec i { s with g := g } = .next { t with g := g })

/-- 10_state.md R28, R29: the length never shrinks and no byte changes but those appended from the old length on, until an accepted
START, which leaves every byte UNWRITTEN. -/
def Obligations.WrittenBytesAreFinal : Prop :=
  ∀ (i : Instr) (s t : State), Invariants s → exec i s = .next t →
    (∃ gainDb, i = .start gainDb ∧ gainAccepted s.config.params gainDb = true
        ∧ t.outLen = 0 ∧ ∀ a, memRead t.out a = none)
    ∨ (s.outLen.toNat ≤ t.outLen.toNat ∧ t.outLen.toNat ≤ t.config.params.maxCapacity
        ∧ ∀ a, a < s.outLen.toNat ∨ t.outLen.toNat ≤ a → memRead t.out a = memRead s.out a)

/-- 30_encoding.md R75: one response per read command, at the young end of the channel, and none for any other. -/
def Obligations.OneResponsePerReadCommand : Prop :=
  ∀ (i : Instr) (s t : State), exec i s = .next t →
    ∃ given : List Response, t.responses = s.responses ++ given ∧ given.length = (if isRead i then 1 else 0)

/-- 10_state.md R33: nothing writes the configuration. -/
def Obligations.ConfigurationNeverChanges : Prop :=
  ∀ s t : State, step s = .next t → t.config = s.config
end

