-- ==== Sys2Proof/Laws/Binary32.lean ====
section
/-! SUPPORT. The specification of the rounding that `fmul`, `fdiv` and `fadd` share: what it computes, that nothing is nearer, ties
to even, and exactly when it overflows. -/

namespace Sys2Proof

/-- The units of 2^-149 that a 31-bit magnitude code stands for. -/
def codeUnits (c : Nat) : Nat := if c / 2 ^ 23 = 0 then c % 2 ^ 23 else (2 ^ 23 + c % 2 ^ 23) * 2 ^ (c / 2 ^ 23 - 1)

theorem unitsOf_eq_codeUnits (f : Binary32) : unitsOf f = codeUnits (f.toNat % 2 ^ 31) := by
  have e1 : f32Exponent f = f.toNat % 2 ^ 31 / 2 ^ 23 := by
    simp only [f32Exponent, BitVec.extractLsb'_toNat, Nat.shiftRight_eq_div_pow]
    omega
  have e2 : f32Fraction f = f.toNat % 2 ^ 31 % 2 ^ 23 := by
    simp only [f32Fraction, BitVec.extractLsb'_toNat, Nat.shiftRight_zero]
    omega
  simp only [unitsOf, codeUnits, e1, e2]

/-- A code written as `k` binades and a significand `m`. -/
theorem codeUnits_binade (k m : Nat) (h : (k = 0 ∧ m ≤ 2 ^ 24) ∨ (2 ^ 23 ≤ m ∧ m ≤ 2 ^ 24)) :
    codeUnits (k * 2 ^ 23 + m) = m * 2 ^ k := by
  unfold codeUnits
  rcases Nat.lt_or_ge m (2 ^ 23) with hm | hm
  · have hk : k = 0 := by omega
    subst hk
    rw [if_pos (by omega)]
    simp
    omega
  · rcases Nat.lt_or_ge m (2 ^ 24) with hm' | hm'
    · rw [if_neg (by omega), show (k * 2 ^ 23 + m) / 2 ^ 23 - 1 = k by omega,
        show 2 ^ 23 + (k * 2 ^ 23 + m) % 2 ^ 23 = m by omega]
    · have : m = 2 ^ 24 := by omega
      subst this
      rw [if_neg (by omega), show (k * 2 ^ 23 + 2 ^ 24) / 2 ^ 23 - 1 = k + 1 by omega,
        show 2 ^ 23 + (k * 2 ^ 23 + 2 ^ 24) % 2 ^ 23 = 2 ^ 23 by omega, Nat.pow_succ]
      ring

/-- Every code has such a form. -/
theorem code_binade (c : Nat) :
    ∃ k m, c = k * 2 ^ 23 + m ∧ ((k = 0 ∧ m < 2 ^ 24) ∨ (2 ^ 23 ≤ m ∧ m < 2 ^ 24)) := by
  rcases Nat.lt_or_ge c (2 ^ 24) with h | h
  · exact ⟨0, c, by omega, .inl ⟨rfl, h⟩⟩
  · exact ⟨c / 2 ^ 23 - 1, c % 2 ^ 23 + 2 ^ 23, by omega, .inr (by omega)⟩

/-- The rounded quotient is within half a divisor, and even at exactly half. -/
theorem roundHalfEven_spec (num den : Nat) (h : 0 < den) :
    2 * ((num : Int) - den * roundHalfEven num den).natAbs ≤ den
    ∧ (2 * ((num : Int) - den * roundHalfEven num den).natAbs = den → roundHalfEven num den % 2 = 0) := by
  have e := Nat.div_add_mod num den
  have hr := Nat.mod_lt num h
  unfold roundHalfEven
  generalize num / den = q at *
  generalize num % den = r at *
  subst e
  dsimp only
  split
  · next hc =>
    have e2 : ((den * q + r : Nat) : Int) - den * ((q + 1 : Nat) : Int) = r - den := by push_cast; ring
    rw [e2]
    simp only [Bool.or_eq_true, decide_eq_true_eq, Bool.and_eq_true, beq_iff_eq] at hc
    omega
  · next hc =>
    have e2 : ((den * q + r : Nat) : Int) - den * (q : Int) = r := by push_cast; ring
    rw [e2]
    simp only [Bool.or_eq_true, decide_eq_true_eq, Bool.and_eq_true, beq_iff_eq] at hc
    omega

/-- No other multiple of the divisor is nearer. -/
theorem roundHalfEven_nearest (num den : Nat) (h : 0 < den) (j : Nat) :
    ((num : Int) - den * roundHalfEven num den).natAbs ≤ ((num : Int) - den * j).natAbs
    ∧ (((num : Int) - den * roundHalfEven num den).natAbs = ((num : Int) - den * j).natAbs →
        j ≠ roundHalfEven num den → roundHalfEven num den % 2 = 0) := by
  obtain ⟨h1, h2⟩ := roundHalfEven_spec num den h
  generalize roundHalfEven num den = m at *
  by_cases hj : j = m
  · subst hj; simp
  · have hd : (den : Int) ≤ ((den : Int) * m - den * j).natAbs := by
      rw [← mul_sub, Int.natAbs_mul, Int.natAbs_natCast]
      have : 1 ≤ ((m : Int) - j).natAbs := by omega
      exact_mod_cast Nat.le_mul_of_pos_right den this
    generalize (den : Int) * m = x at *
    generalize (den : Int) * j = y at *
    exact ⟨by omega, fun he _ => h2 (by omega)⟩

theorem log2_bounds (q : Nat) (h : q.log2 - 23 ≠ 0) :
    2 ^ (23 + (q.log2 - 23)) ≤ q ∧ q < 2 ^ (24 + (q.log2 - 23)) := by
  have hq : q ≠ 0 := by rintro rfl; simp at h
  have e1 : 23 + (q.log2 - 23) = q.log2 := by omega
  have e2 : 24 + (q.log2 - 23) = q.log2 + 1 := by omega
  rw [e1, e2]
  exact ⟨Nat.log2_self_le hq, Nat.lt_log2_self⟩

theorem log2_small (q : Nat) (h : q.log2 - 23 = 0) : q < 2 ^ 24 := by
  have := @Nat.lt_log2_self q
  exact Nat.lt_of_lt_of_le this (Nat.pow_le_pow_right (by decide) (by omega))

theorem roundHalfEven_le (num den b : Nat) (h : num / den < b) : roundHalfEven num den ≤ b := by
  unfold roundHalfEven
  dsimp only
  split <;> omega

theorem le_roundHalfEven (num den b : Nat) (h : b ≤ num / den) : b ≤ roundHalfEven num den := by
  unfold roundHalfEven
  dsimp only
  split <;> omega

/-- What the rounding computes: a binade `k` and a significand `m`. -/
theorem roundMagnitude_form (num den : Nat) (hd : 0 < den) :
    ∃ k, roundMagnitude num den = min (k * 2 ^ 23 + roundHalfEven num (den * 2 ^ k)) infinityMagnitude
      ∧ ((k = 0 ∧ roundHalfEven num (den * 2 ^ k) ≤ 2 ^ 24)
        ∨ (2 ^ 23 ≤ roundHalfEven num (den * 2 ^ k) ∧ roundHalfEven num (den * 2 ^ k) ≤ 2 ^ 24 ∧ den * 2 ^ k * 2 ^ 23 ≤ num)) := by
  refine ⟨(num / den).log2 - 23, rfl, ?_⟩
  by_cases hk : (num / den).log2 - 23 = 0
  · left
    refine ⟨hk, ?_⟩
    rw [hk]
    apply roundHalfEven_le
    simpa using log2_small _ hk
  · right
    obtain ⟨h1, h2⟩ := log2_bounds _ hk
    generalize (num / den).log2 - 23 = k at *
    have e : num / (den * 2 ^ k) = num / den / 2 ^ k := by rw [Nat.div_div_eq_div_mul]
    have p : 0 < 2 ^ k := Nat.two_pow_pos k
    refine ⟨?_, ?_, ?_⟩
    · apply le_roundHalfEven
      rw [e, Nat.le_div_iff_mul_le p, ← Nat.pow_add]; exact h1
    · apply roundHalfEven_le
      rw [e, Nat.div_lt_iff_lt_mul p, ← Nat.pow_add]; exact h2
    · have := (Nat.le_div_iff_mul_le hd).1 h1
      rw [Nat.pow_add] at this
      calc den * 2 ^ k * 2 ^ 23 = 2 ^ 23 * 2 ^ k * den := by ring
        _ ≤ num := this

/-- A value below a multiple that does not exceed `num` is farther from `num` than whatever is as near as that multiple. -/
theorem nearer_of_beyond (num : Nat) (x : Int) (y z : Nat) (h : ((num : Int) - x).natAbs ≤ ((num : Int) - (z : Int)).natAbs)
    (hyz : y < z) (hz : z ≤ num) :
    ((num : Int) - x).natAbs ≤ ((num : Int) - (y : Int)).natAbs
    ∧ ((num : Int) - x).natAbs ≠ ((num : Int) - (y : Int)).natAbs := by
  omega

/-- No magnitude is nearer to `num / den` than the rounded one, and where one is as near the rounded code is even. -/
theorem roundMagnitude_nearest (num den c : Nat) (hd : 0 < den) (hf : roundMagnitude num den < infinityMagnitude) :
    ((num : Int) - den * codeUnits (roundMagnitude num den)).natAbs ≤ ((num : Int) - den * codeUnits c).natAbs
    ∧ (((num : Int) - den * codeUnits (roundMagnitude num den)).natAbs = ((num : Int) - den * codeUnits c).natAbs →
        codeUnits c ≠ codeUnits (roundMagnitude num den) → roundMagnitude num den % 2 = 0) := by
  obtain ⟨k, e, hk⟩ := roundMagnitude_form num den hd
  have e' : roundMagnitude num den = k * 2 ^ 23 + roundHalfEven num (den * 2 ^ k) := by omega
  have hD : 0 < den * 2 ^ k := Nat.mul_pos hd (Nat.two_pow_pos k)
  have hn := roundHalfEven_nearest num (den * 2 ^ k) hD
  rw [e', codeUnits_binade k _ (by omega)]
  generalize roundHalfEven num (den * 2 ^ k) = m at *
  have a1 : (den : Int) * ((m * 2 ^ k : Nat) : Int) = ((den * 2 ^ k : Nat) : Int) * m := by push_cast; ring
  rw [a1]
  obtain ⟨k', m', rfl, hm'⟩ := code_binade c
  rw [codeUnits_binade k' m' (by omega)]
  rcases Nat.lt_or_ge k' k with hlt | hge
  · have hk2 : den * 2 ^ k * 2 ^ 23 ≤ num := by omega
    have hv : m' * 2 ^ k' < 2 ^ 23 * 2 ^ k := by
      calc m' * 2 ^ k' < 2 ^ 24 * 2 ^ k' := Nat.mul_lt_mul_of_pos_right (by omega) (Nat.two_pow_pos _)
        _ = 2 ^ 23 * 2 ^ (k' + 1) := by rw [Nat.pow_succ]; ring
        _ ≤ 2 ^ 23 * 2 ^ k := Nat.mul_le_mul_left _ (Nat.pow_le_pow_right (by decide) hlt)
    have hv2 : den * (m' * 2 ^ k') < den * 2 ^ k * 2 ^ 23 := by
      calc den * (m' * 2 ^ k') < den * (2 ^ 23 * 2 ^ k) := Nat.mul_lt_mul_of_pos_left hv hd
        _ = den * 2 ^ k * 2 ^ 23 := by ring
    obtain ⟨h1, _⟩ := hn (2 ^ 23)
    have b1 : (den : Int) * ((m' * 2 ^ k' : Nat) : Int) = ((den * (m' * 2 ^ k') : Nat) : Int) := by push_cast; ring
    have b2 : ((den * 2 ^ k : Nat) : Int) * ((2 ^ 23 : Nat) : Int) = ((den * 2 ^ k * 2 ^ 23 : Nat) : Int) := by push_cast; ring
    rw [b2] at h1
    rw [b1]
    have far := nearer_of_beyond num _ _ _ h1 hv2 hk2
    exact ⟨far.1, fun he => absurd he far.2⟩
  · have b1 : (den : Int) * ((m' * 2 ^ k' : Nat) : Int) = ((den * 2 ^ k : Nat) : Int) * ((m' * 2 ^ (k' - k) : Nat) : Int) := by
      have : 2 ^ k' = 2 ^ k * 2 ^ (k' - k) := by rw [← Nat.pow_add]; congr 1; omega
      rw [this]; push_cast; ring
    obtain ⟨h1, h2⟩ := hn (m' * 2 ^ (k' - k))
    rw [b1]
    refine ⟨h1, fun he hne => ?_⟩
    have := h2 he (by
      rintro rfl
      apply hne
      rw [mul_assoc, ← Nat.pow_add]; congr 2; omega)
    omega

/-- Below the last binade the exact value lies below the overflow threshold. -/
theorem below_threshold (num D P m : Nat) (hP : 0 < P) (hD : D ≤ P) (hm : m ≤ 2 ^ 24)
    (h : 2 * ((num : Int) - D * m).natAbs ≤ D) : num < P * (2 ^ 25 - 1) := by
  have hx : D * m ≤ D * 2 ^ 24 := Nat.mul_le_mul_left _ hm
  have c : (D : Int) * (m : Int) = ((D * m : Nat) : Int) := by push_cast; ring
  rw [c] at h
  omega

/-- In the last binade the rounding carries out of it exactly from the overflow threshold. -/
theorem last_binade (num P m : Nat) (hP : 0 < P) (hm : m ≤ 2 ^ 24)
    (h : 2 * ((num : Int) - (2 * P : Nat) * m).natAbs ≤ 2 * P)
    (ht : 2 * ((num : Int) - (2 * P : Nat) * m).natAbs = 2 * P → m % 2 = 0) : m = 2 ^ 24 ↔ P * (2 ^ 25 - 1) ≤ num := by
  rcases Nat.lt_or_ge m (2 ^ 24 - 1) with hm2 | hm2
  · have h3 : 2 * P * m ≤ 2 * P * (2 ^ 24 - 2) := Nat.mul_le_mul_left _ (by omega)
    have c : ((2 * P : Nat) : Int) * (m : Int) = ((2 * P * m : Nat) : Int) := by push_cast; ring
    rw [c] at h
    omega
  · have hc : m = 2 ^ 24 - 1 ∨ m = 2 ^ 24 := by omega
    rcases hc with hc | hc <;> subst hc <;> omega

/-- Above the last binade the exact value is past the overflow threshold. -/
theorem above_threshold (num P D : Nat) (h : P * 2 ^ 2 ≤ D) (hn : D * 2 ^ 23 ≤ num) : P * (2 ^ 25 - 1) ≤ num :=
  calc P * (2 ^ 25 - 1) ≤ P * (2 ^ 2 * 2 ^ 23) := Nat.mul_le_mul_left _ (by decide)
    _ = P * 2 ^ 2 * 2 ^ 23 := (Nat.mul_assoc _ _ _).symm
    _ ≤ D * 2 ^ 23 := Nat.mul_le_mul_right _ h
    _ ≤ num := hn

/-- The rounding overflows exactly from half a last place past the largest finite magnitude. -/
theorem roundMagnitude_overflow (num den : Nat) (hd : 0 < den) :
    roundMagnitude num den = infinityMagnitude ↔ den * ((2 ^ 25 - 1) * 2 ^ 252) ≤ num := by
  obtain ⟨k, e, hk⟩ := roundMagnitude_form num den hd
  have hD : 0 < den * 2 ^ k := Nat.mul_pos hd (Nat.two_pow_pos k)
  have hP : 0 < den * 2 ^ 252 := Nat.mul_pos hd (Nat.two_pow_pos 252)
  obtain ⟨s1, s2⟩ := roundHalfEven_spec num (den * 2 ^ k) hD
  have eT : den * ((2 ^ 25 - 1) * 2 ^ 252) = den * 2 ^ 252 * (2 ^ 25 - 1) := by
    rw [Nat.mul_assoc, Nat.mul_comm (2 ^ 252)]
  rw [e, eT]
  have hm : roundHalfEven num (den * 2 ^ k) ≤ 2 ^ 24 := by omega
  rcases Nat.lt_trichotomy k 253 with h | h | h
  · have hle : den * 2 ^ k ≤ den * 2 ^ 252 :=
      Nat.mul_le_mul_left _ (Nat.pow_le_pow_right (by decide) (by omega))
    have hn := below_threshold num _ _ _ hP hle hm s1
    constructor
    · intro hh; unfold infinityMagnitude at hh; omega
    · intro hh; exact absurd hn (Nat.not_lt.2 hh)
  · subst h
    have h2 : den * 2 ^ 253 = 2 * (den * 2 ^ 252) := by
      rw [show (253 : Nat) = 252 + 1 from rfl, Nat.pow_succ, ← Nat.mul_assoc, Nat.mul_comm]
    rw [h2] at s1 s2 hm ⊢
    rw [← last_binade num _ _ hP hm s1 s2]
    unfold infinityMagnitude
    omega
  · have hle : den * 2 ^ 254 ≤ den * 2 ^ k :=
      Nat.mul_le_mul_left _ (Nat.pow_le_pow_right (by decide) (by omega))
    have h4 : den * 2 ^ 254 = den * 2 ^ 252 * 2 ^ 2 := by
      rw [show (254 : Nat) = 252 + 2 from rfl, Nat.pow_add, Nat.mul_assoc]
    rw [h4] at hle
    constructor
    · intro _
      have hk' : den * 2 ^ k * 2 ^ 23 ≤ num := by omega
      exact above_threshold num _ _ hle hk'
    · intro _; unfold infinityMagnitude; omega

/-! ### The classes of a pattern, by its 31 magnitude bits -/

theorem isFinite_iff (f : Binary32) : isFinite f = true ↔ f.toNat % 2 ^ 31 < infinityMagnitude := by
  simp only [isFinite, f32Exponent, BitVec.extractLsb'_toNat, Nat.shiftRight_eq_div_pow, infinityMagnitude, bne_iff_ne, ne_eq]
  omega

theorem isInfinite_iff (f : Binary32) : isInfinite f = true ↔ f.toNat % 2 ^ 31 = infinityMagnitude := by
  simp only [isInfinite, f32Exponent, f32Fraction, BitVec.extractLsb'_toNat, Nat.shiftRight_eq_div_pow, infinityMagnitude,
    Bool.and_eq_true, beq_iff_eq]
  omega

theorem isNaN_iff (f : Binary32) : isNaN f = true ↔ infinityMagnitude < f.toNat % 2 ^ 31 := by
  simp only [isNaN, f32Exponent, f32Fraction, BitVec.extractLsb'_toNat, Nat.shiftRight_eq_div_pow, infinityMagnitude,
    Bool.and_eq_true, beq_iff_eq, bne_iff_ne]
  omega

theorem isZero_iff (f : Binary32) : isZero f = true ↔ f.toNat % 2 ^ 31 = 0 := by
  simp only [isZero, f32Exponent, f32Fraction, BitVec.extractLsb'_toNat, Nat.shiftRight_eq_div_pow, Bool.and_eq_true,
    beq_iff_eq]
  omega

/-- A packed pattern has the magnitude and the sign it was packed from. -/
theorem packBinary32_fields (sign : Bool) (m : Nat) (h : m < 2 ^ 31) :
    (packBinary32 sign m).toNat % 2 ^ 31 = m ∧ f32Sign (packBinary32 sign m) = sign := by
  have e : (packBinary32 sign m).toNat = (if sign then 2 ^ 31 else 0) + m := by
    unfold packBinary32
    rw [BitVec.toNat_ofNat]
    cases sign <;> simp <;> omega
  refine ⟨by rw [e]; cases sign <;> simp <;> omega, ?_⟩
  unfold f32Sign
  rw [BitVec.getLsbD, e, Nat.testBit_eq_decide_div_mod_eq]
  cases sign <;> simp <;> omega

theorem roundMagnitude_le (num den : Nat) : roundMagnitude num den ≤ infinityMagnitude := Nat.min_le_right _ _

/-- A larger magnitude code stands for a larger value. -/
theorem codeUnits_lt {a b : Nat} (h : a < b) : codeUnits a < codeUnits b := by
  obtain ⟨k, m, rfl, hm⟩ := code_binade a
  obtain ⟨k', m', rfl, hm'⟩ := code_binade b
  rw [codeUnits_binade k m (by omega), codeUnits_binade k' m' (by omega)]
  rcases Nat.lt_trichotomy k k' with hk | hk | hk
  · calc m * 2 ^ k < 2 ^ 24 * 2 ^ k := Nat.mul_lt_mul_of_pos_right (by omega) (Nat.two_pow_pos _)
      _ = 2 ^ 23 * 2 ^ (k + 1) := by rw [Nat.pow_succ]; ring
      _ ≤ 2 ^ 23 * 2 ^ k' := Nat.mul_le_mul_left _ (Nat.pow_le_pow_right (by decide) hk)
      _ ≤ m' * 2 ^ k' := Nat.mul_le_mul_right _ (by omega)
  · subst hk
    exact Nat.mul_lt_mul_of_pos_right (by omega) (Nat.two_pow_pos _)
  · omega

end Sys2Proof
end

