-- ==== Sys2Proof/Laws/Config.lean ====
section
/-! SUPPORT. What a configuration gives: every function has a table, and R6's conditions on `DB_TO_LINEAR` for the gains START
accepts. -/

namespace Sys2Proof

@[simp] theorem gainOf_nil (x : Binary32) : gainOf [] x = one := rfl

@[simp] theorem gainOf_cons (operand result x : Binary32) (rest : GainTable) :
    gainOf ((operand, result) :: rest) x = if x = operand then result else gainOf rest x := rfl

/-- An operand without a row has the result 1.0. -/
theorem gainOf_eq_one (table : GainTable) (x : Binary32) (h : ∀ row ∈ table, row.1 ≠ x) : gainOf table x = one := by
  induction table with
  | nil => rfl
  | cons row rest ih =>
    have hrow : x ≠ row.1 := (h row (List.mem_cons_self ..)).symm
    have hrest : ∀ r ∈ rest, r.1 ≠ x := fun r hr => h r (List.mem_cons_of_mem _ hr)
    exact (if_neg hrow).trans (ih hrest)

/-- A table made of a function's own rows stands for it on their operands. -/
theorem gainOf_map (f : Binary32 → Binary32) (operands : List Binary32) (x : Binary32) (h : x ∈ operands) :
    gainOf (operands.map fun g => (g, f g)) x = f x := by
  induction operands with
  | nil => cases h
  | cons g rest ih =>
    rw [List.map_cons, gainOf_cons]
    split
    · next e => rw [e]
    · next e => exact ih ((List.mem_cons.1 h).resolve_left e)

theorem exists_list_of_all (n : Nat) : ∃ l : List (BitVec n), ∀ x, x ∈ l :=
  ⟨(List.range (2 ^ n)).map (BitVec.ofNat n), fun x =>
    List.mem_map.2 ⟨x.toNat, List.mem_range.2 x.isLt, by simp⟩⟩

/-- Every function from binary32 to binary32 has a table (00_scope.md R5, log 5). -/
theorem exists_gainTable (f : Binary32 → Binary32) : ∃ table : GainTable, gainOf table = f := by
  obtain ⟨l, hl⟩ := exists_list_of_all 32
  exact ⟨_, funext fun x => gainOf_map f l x (hl x)⟩

/-- 00_scope.md R6 for `DB_TO_LINEAR`, with the rows' check spread to every operand. -/
theorem Params.gainLegal_iff (p : Params) :
    p.gainLegal = true ↔
      p.dbToLinear plusZero = one ∧ p.dbToLinear minusZero = one
      ∧ ∀ g, p.inGainRange g = true → isFinite (p.dbToLinear g) = true ∧ fgt (p.dbToLinear g) plusZero = true := by
  simp only [Params.gainLegal, Bool.and_eq_true, beq_iff_eq, and_assoc, List.all_eq_true, Bool.or_eq_true, Bool.not_eq_true']
  refine and_congr_right fun _ => and_congr_right fun _ => ⟨fun h g hg => ?_, fun h row _ => ?_⟩
  · by_cases hr : ∃ row ∈ p.gainTable, row.1 = g
    · obtain ⟨row, hm, rfl⟩ := hr
      exact (h row hm).resolve_left (by rw [hg]; decide)
    · have e : p.dbToLinear g = one := gainOf_eq_one _ _ fun row hm he => hr ⟨row, hm, he⟩
      rw [e]
      decide
  · cases hr : p.inGainRange row.1
    · exact .inl rfl
    · exact .inr (h _ hr)

/-- The single conditions of 00_scope.md R6. -/
theorem Params.legal_iff (p : Params) :
    p.legal = true ↔
      p.maxCapacity ≤ 2 ^ 32 - 1
      ∧ (isFinite p.clampLimit = true ∧ fgt p.clampLimit plusZero = true)
      ∧ (isFinite p.scaleDivisor = true ∧ fgt p.scaleDivisor plusZero = true)
      ∧ (isFinite p.gainDbMin = true ∧ isFinite p.gainDbMax = true)
      ∧ (fge plusZero p.gainDbMin = true ∧ fge p.gainDbMax plusZero = true)
      ∧ p.gainLegal = true := by
  simp only [Params.legal, Bool.and_eq_true, decide_eq_true_eq, and_assoc]

theorem isNaN_eq_false_of_isFinite (f : Binary32) (h : isFinite f = true) : isNaN f = false := by
  simp only [isFinite, bne_iff_ne] at h
  simp [isNaN, h]

/-- 00_scope.md R6: the capacity fits the 32-bit index. -/
theorem Config.capacity_le (c : Config) : c.params.maxCapacity ≤ 2 ^ 32 - 1 := ((Params.legal_iff _).1 c.legal).1

/-- A gain that START accepts lies in the range of R6. -/
theorem Config.inGainRange_of_accepted (c : Config) (g : Binary32) (h : Machine.gainAccepted c.params g = true) :
    c.params.inGainRange g = true := by
  obtain ⟨-, -, -, ⟨hmin, hmax⟩, -⟩ := (Params.legal_iff _).1 c.legal
  simp only [Machine.gainAccepted, flt, fgt, Bool.not_eq_true', Bool.or_eq_false_iff] at h
  have nmin := isNaN_eq_false_of_isFinite _ hmin
  have nmax := isNaN_eq_false_of_isFinite _ hmax
  obtain ⟨⟨hn, h1⟩, h2⟩ := h
  simp only [hn, nmin, nmax, Bool.not_false, Bool.true_and, decide_eq_false_iff_not, not_lt] at h1 h2
  simp [Params.inGainRange, fge, hn, nmin, nmax, h1, h2]

/-- `G` after an accepted START: "finite and strictly greater than zero" (00_scope.md R6). -/
theorem Config.dbToLinear_of_accepted (c : Config) (g : Binary32) (h : Machine.gainAccepted c.params g = true) :
    isFinite (c.params.dbToLinear g) = true ∧ fgt (c.params.dbToLinear g) plusZero = true :=
  ((Params.gainLegal_iff _).1 ((Params.legal_iff _).1 c.legal).2.2.2.2.2).2.2 g (c.inGainRange_of_accepted g h)

end Sys2Proof
end

