-- ==== Sys2Proof/Laws/Memory.lean ====
section
/-! SUPPORT. The laws of the output buffer: read after write, every other index left alone, canonical form kept. -/

namespace Sys2Proof.Machine

@[simp] theorem memRead_nil (a : Nat) : memRead [] a = none := rfl

@[simp] theorem memRead_cons (b a : Nat) (v : Byte) (m : Memory) :
    memRead ((b, v) :: m) a = if a = b then some v else memRead m a := rfl

@[simp] theorem memRead_memWrite_self (m : Memory) (a : Nat) (v : Byte) : memRead (memWrite m a v) a = some v := by
  induction m with
  | nil => simp [memWrite]
  | cons c rest ih =>
    obtain ⟨b, w⟩ := c
    unfold memWrite
    split
    · simp
    · split
      · simp
      · simp [*]

theorem memRead_memWrite_of_ne (m : Memory) {a a' : Nat} (v : Byte) (h : a' ≠ a) :
    memRead (memWrite m a v) a' = memRead m a' := by
  induction m with
  | nil => simp [memWrite, h]
  | cons c rest ih =>
    obtain ⟨b, w⟩ := c
    unfold memWrite
    split
    · simp [h]
    · split
      · next hab => subst hab; simp [h]
      · simp [ih]

/-- What one write does to every read. -/
theorem memRead_memWrite (m : Memory) (a a' : Nat) (v : Byte) :
    memRead (memWrite m a v) a' = if a' = a then some v else memRead m a' := by
  split
  · next h => subst h; exact memRead_memWrite_self m _ v
  · next h => exact memRead_memWrite_of_ne m v h

@[simp] theorem Memory.wf_nil : Memory.wf [] = true := rfl

theorem Memory.wf_cons_cons (a b : Nat) (v w : Byte) (m : Memory) :
    Memory.wf ((a, v) :: (b, w) :: m) = true ↔ a < b ∧ Memory.wf ((b, w) :: m) = true := by
  simp [Memory.wf]

/-- The tail of a canonical buffer is canonical. -/
theorem Memory.wf_tail {c : Host.Cell} {m : Memory} (h : Memory.wf (c :: m) = true) : Memory.wf m = true := by
  cases m with
  | nil => rfl
  | cons d rest => exact ((Memory.wf_cons_cons _ _ _ _ _).1 h).2

/-- Putting a lower index in front keeps the canonical form. -/
theorem Memory.wf_cons_memWrite {b a : Nat} {w v : Byte} {m : Memory} (hba : b < a)
    (h : Memory.wf ((b, w) :: m) = true) (hm : Memory.wf (memWrite m a v) = true) :
    Memory.wf ((b, w) :: memWrite m a v) = true := by
  cases m with
  | nil => simpa [memWrite, Memory.wf] using hba
  | cons d rest =>
    obtain ⟨c, u⟩ := d
    have hbc := ((Memory.wf_cons_cons _ _ _ _ _).1 h).1
    revert hm
    unfold memWrite
    split
    · intro hm; exact (Memory.wf_cons_cons _ _ _ _ _).2 ⟨hba, hm⟩
    · split
      · intro hm; exact (Memory.wf_cons_cons _ _ _ _ _).2 ⟨hba, hm⟩
      · intro hm; exact (Memory.wf_cons_cons _ _ _ _ _).2 ⟨hbc, hm⟩

/-- A write keeps the canonical form. -/
theorem memWrite_wf (m : Memory) (a : Nat) (v : Byte) (h : Memory.wf m = true) : Memory.wf (memWrite m a v) = true := by
  induction m with
  | nil => rfl
  | cons c rest ih =>
    obtain ⟨b, w⟩ := c
    have hrest := ih (Memory.wf_tail h)
    unfold memWrite
    split
    · next hab => exact (Memory.wf_cons_cons _ _ _ _ _).2 ⟨hab, h⟩
    · split
      · next hab =>
        subst hab
        cases rest with
        | nil => rfl
        | cons d rest =>
          obtain ⟨e, u⟩ := d
          exact (Memory.wf_cons_cons _ _ _ _ _).2 ((Memory.wf_cons_cons _ _ _ _ _).1 h)
      · next h1 h2 => exact Memory.wf_cons_memWrite (by omega) h hrest

end Sys2Proof.Machine
end

