-- ==== Sys2Proof/Laws/State.lean ====
section
/-! SUPPORT. One lemma per field per named update of the state. -/

namespace Sys2Proof.Machine

variable (s : State)


/-! ### `append` -/

@[simp] theorem append_config (v : Byte) : (append v s).config = s.config := rfl
@[simp] theorem append_phase (v : Byte) : (append v s).phase = s.phase := rfl
@[simp] theorem append_g (v : Byte) : (append v s).g = s.g := rfl
@[simp] theorem append_delta (v : Byte) : (append v s).delta = s.delta := rfl
@[simp] theorem append_acc (v : Byte) : (append v s).acc = s.acc := rfl
@[simp] theorem append_nbits (v : Byte) : (append v s).nbits = s.nbits := rfl
@[simp] theorem append_outLen (v : Byte) : (append v s).outLen = s.outLen + 1 := rfl
@[simp] theorem append_out (v : Byte) : (append v s).out = memWrite s.out s.outLen.toNat v := rfl
@[simp] theorem append_errIllegal (v : Byte) : (append v s).errIllegal = s.errIllegal := rfl
@[simp] theorem append_errProtocol (v : Byte) : (append v s).errProtocol = s.errProtocol := rfl
@[simp] theorem append_errDomain (v : Byte) : (append v s).errDomain = s.errDomain := rfl
@[simp] theorem append_errRange (v : Byte) : (append v s).errRange = s.errRange := rfl
@[simp] theorem append_responses (v : Byte) : (append v s).responses = s.responses := rfl
@[simp] theorem append_inputs (v : Byte) : (append v s).inputs = s.inputs := rfl
@[simp] theorem append_draws (v : Byte) : (append v s).draws = s.draws := rfl
@[simp] theorem append_wasReset (v : Byte) : (append v s).wasReset = s.wasReset := rfl

/-! ### `raise` -/

@[simp] theorem raise_config (e : ErrFlag) : (raise e s).config = s.config := by cases e <;> rfl
@[simp] theorem raise_phase (e : ErrFlag) : (raise e s).phase = s.phase := by cases e <;> rfl
@[simp] theorem raise_g (e : ErrFlag) : (raise e s).g = s.g := by cases e <;> rfl
@[simp] theorem raise_delta (e : ErrFlag) : (raise e s).delta = s.delta := by cases e <;> rfl
@[simp] theorem raise_acc (e : ErrFlag) : (raise e s).acc = s.acc := by cases e <;> rfl
@[simp] theorem raise_nbits (e : ErrFlag) : (raise e s).nbits = s.nbits := by cases e <;> rfl
@[simp] theorem raise_outLen (e : ErrFlag) : (raise e s).outLen = s.outLen := by cases e <;> rfl
@[simp] theorem raise_out (e : ErrFlag) : (raise e s).out = s.out := by cases e <;> rfl
@[simp] theorem raise_responses (e : ErrFlag) : (raise e s).responses = s.responses := by cases e <;> rfl
@[simp] theorem raise_inputs (e : ErrFlag) : (raise e s).inputs = s.inputs := by cases e <;> rfl
@[simp] theorem raise_draws (e : ErrFlag) : (raise e s).draws = s.draws := by cases e <;> rfl
@[simp] theorem raise_wasReset (e : ErrFlag) : (raise e s).wasReset = s.wasReset := by cases e <;> rfl
@[simp] theorem errFlag_raise (e e' : ErrFlag) : errFlag (raise e s) e' = (errFlag s e' || decide (e = e')) := by
  cases e <;> cases e' <;> simp [raise, errFlag]

/-! ### `respond` -/

@[simp] theorem respond_config (v : Response) : (respond v s).config = s.config := rfl
@[simp] theorem respond_phase (v : Response) : (respond v s).phase = s.phase := rfl
@[simp] theorem respond_g (v : Response) : (respond v s).g = s.g := rfl
@[simp] theorem respond_delta (v : Response) : (respond v s).delta = s.delta := rfl
@[simp] theorem respond_acc (v : Response) : (respond v s).acc = s.acc := rfl
@[simp] theorem respond_nbits (v : Response) : (respond v s).nbits = s.nbits := rfl
@[simp] theorem respond_outLen (v : Response) : (respond v s).outLen = s.outLen := rfl
@[simp] theorem respond_out (v : Response) : (respond v s).out = s.out := rfl
@[simp] theorem respond_errIllegal (v : Response) : (respond v s).errIllegal = s.errIllegal := rfl
@[simp] theorem respond_errProtocol (v : Response) : (respond v s).errProtocol = s.errProtocol := rfl
@[simp] theorem respond_errDomain (v : Response) : (respond v s).errDomain = s.errDomain := rfl
@[simp] theorem respond_errRange (v : Response) : (respond v s).errRange = s.errRange := rfl
@[simp] theorem respond_responses (v : Response) : (respond v s).responses = s.responses ++ [v] := rfl
@[simp] theorem respond_inputs (v : Response) : (respond v s).inputs = s.inputs := rfl
@[simp] theorem respond_draws (v : Response) : (respond v s).draws = s.draws := rfl
@[simp] theorem respond_wasReset (v : Response) : (respond v s).wasReset = s.wasReset := rfl

/-! ### `respondAny` -/

@[simp] theorem respondAny_config : (respondAny s).config = s.config := rfl
@[simp] theorem respondAny_phase : (respondAny s).phase = s.phase := rfl
@[simp] theorem respondAny_g : (respondAny s).g = s.g := rfl
@[simp] theorem respondAny_delta : (respondAny s).delta = s.delta := rfl
@[simp] theorem respondAny_acc : (respondAny s).acc = s.acc := rfl
@[simp] theorem respondAny_nbits : (respondAny s).nbits = s.nbits := rfl
@[simp] theorem respondAny_outLen : (respondAny s).outLen = s.outLen := rfl
@[simp] theorem respondAny_out : (respondAny s).out = s.out := rfl
@[simp] theorem respondAny_errIllegal : (respondAny s).errIllegal = s.errIllegal := rfl
@[simp] theorem respondAny_errProtocol : (respondAny s).errProtocol = s.errProtocol := rfl
@[simp] theorem respondAny_errDomain : (respondAny s).errDomain = s.errDomain := rfl
@[simp] theorem respondAny_errRange : (respondAny s).errRange = s.errRange := rfl
@[simp] theorem respondAny_responses : (respondAny s).responses = s.responses ++ [Config.freeResponse s.draws] := rfl
@[simp] theorem respondAny_inputs : (respondAny s).inputs = s.inputs := rfl
@[simp] theorem respondAny_draws : (respondAny s).draws = s.draws + 1 := rfl
@[simp] theorem respondAny_wasReset : (respondAny s).wasReset = s.wasReset := rfl

/-! ### `takeResponse` -/

@[simp] theorem takeResponse_config : (takeResponse s).config = s.config := rfl
@[simp] theorem takeResponse_phase : (takeResponse s).phase = s.phase := rfl
@[simp] theorem takeResponse_g : (takeResponse s).g = s.g := rfl
@[simp] theorem takeResponse_delta : (takeResponse s).delta = s.delta := rfl
@[simp] theorem takeResponse_acc : (takeResponse s).acc = s.acc := rfl
@[simp] theorem takeResponse_nbits : (takeResponse s).nbits = s.nbits := rfl
@[simp] theorem takeResponse_outLen : (takeResponse s).outLen = s.outLen := rfl
@[simp] theorem takeResponse_out : (takeResponse s).out = s.out := rfl
@[simp] theorem takeResponse_errIllegal : (takeResponse s).errIllegal = s.errIllegal := rfl
@[simp] theorem takeResponse_errProtocol : (takeResponse s).errProtocol = s.errProtocol := rfl
@[simp] theorem takeResponse_errDomain : (takeResponse s).errDomain = s.errDomain := rfl
@[simp] theorem takeResponse_errRange : (takeResponse s).errRange = s.errRange := rfl
@[simp] theorem takeResponse_responses : (takeResponse s).responses = s.responses.tail := rfl
@[simp] theorem takeResponse_inputs : (takeResponse s).inputs = s.inputs := rfl
@[simp] theorem takeResponse_draws : (takeResponse s).draws = s.draws := rfl
@[simp] theorem takeResponse_wasReset : (takeResponse s).wasReset = s.wasReset := rfl

/-! ### `beginConversion` -/

@[simp] theorem beginConversion_config (gainDb : Binary32) : (beginConversion gainDb s).config = s.config := rfl
@[simp] theorem beginConversion_phase (gainDb : Binary32) : (beginConversion gainDb s).phase = .encoding := rfl
@[simp] theorem beginConversion_g (gainDb : Binary32) :
    (beginConversion gainDb s).g = s.config.params.dbToLinear gainDb := rfl
@[simp] theorem beginConversion_delta (gainDb : Binary32) : (beginConversion gainDb s).delta = bias := rfl
@[simp] theorem beginConversion_acc (gainDb : Binary32) : (beginConversion gainDb s).acc = 0x00 := rfl
@[simp] theorem beginConversion_nbits (gainDb : Binary32) : (beginConversion gainDb s).nbits = 0 := rfl
@[simp] theorem beginConversion_outLen (gainDb : Binary32) : (beginConversion gainDb s).outLen = 0 := rfl
@[simp] theorem beginConversion_out (gainDb : Binary32) : (beginConversion gainDb s).out = [] := rfl
@[simp] theorem beginConversion_errIllegal (gainDb : Binary32) : (beginConversion gainDb s).errIllegal = s.errIllegal := rfl
@[simp] theorem beginConversion_errProtocol (gainDb : Binary32) :
    (beginConversion gainDb s).errProtocol = s.errProtocol := rfl
@[simp] theorem beginConversion_errDomain (gainDb : Binary32) : (beginConversion gainDb s).errDomain = s.errDomain := rfl
@[simp] theorem beginConversion_errRange (gainDb : Binary32) : (beginConversion gainDb s).errRange = s.errRange := rfl
@[simp] theorem beginConversion_responses (gainDb : Binary32) : (beginConversion gainDb s).responses = s.responses := rfl
@[simp] theorem beginConversion_inputs (gainDb : Binary32) : (beginConversion gainDb s).inputs = s.inputs := rfl
@[simp] theorem beginConversion_draws (gainDb : Binary32) : (beginConversion gainDb s).draws = s.draws := rfl
@[simp] theorem beginConversion_wasReset (gainDb : Binary32) : (beginConversion gainDb s).wasReset = s.wasReset := rfl

/-! ### `assertReset` -/

@[simp] theorem assertReset_config : (assertReset s).config = s.config := rfl
@[simp] theorem assertReset_phase : (assertReset s).phase = .idle := rfl
@[simp] theorem assertReset_g : (assertReset s).g = 0x00000000 := rfl
@[simp] theorem assertReset_delta : (assertReset s).delta = 32 := rfl
@[simp] theorem assertReset_acc : (assertReset s).acc = 0x00 := rfl
@[simp] theorem assertReset_nbits : (assertReset s).nbits = 0 := rfl
@[simp] theorem assertReset_outLen : (assertReset s).outLen = 0 := rfl
@[simp] theorem assertReset_out : (assertReset s).out = [] := rfl
@[simp] theorem assertReset_errIllegal : (assertReset s).errIllegal = false := rfl
@[simp] theorem assertReset_errProtocol : (assertReset s).errProtocol = false := rfl
@[simp] theorem assertReset_errDomain : (assertReset s).errDomain = false := rfl
@[simp] theorem assertReset_errRange : (assertReset s).errRange = false := rfl
@[simp] theorem assertReset_responses : (assertReset s).responses = [] := rfl
@[simp] theorem assertReset_inputs : (assertReset s).inputs = s.inputs := rfl
@[simp] theorem assertReset_draws : (assertReset s).draws = s.draws := rfl
@[simp] theorem assertReset_wasReset : (assertReset s).wasReset = true := rfl

/-! ### `completeByte` -/

@[simp] theorem completeByte_config : (completeByte s).config = s.config := by unfold completeByte; split <;> rfl
@[simp] theorem completeByte_phase : (completeByte s).phase = s.phase := by unfold completeByte; split <;> rfl
@[simp] theorem completeByte_g : (completeByte s).g = s.g := by unfold completeByte; split <;> rfl
@[simp] theorem completeByte_delta : (completeByte s).delta = s.delta := by unfold completeByte; split <;> rfl
@[simp] theorem completeByte_acc : (completeByte s).acc = s.acc := by unfold completeByte; split <;> rfl
@[simp] theorem completeByte_errIllegal : (completeByte s).errIllegal = s.errIllegal := by unfold completeByte; split <;> rfl
@[simp] theorem completeByte_errProtocol :
    (completeByte s).errProtocol = s.errProtocol := by unfold completeByte; split <;> rfl
@[simp] theorem completeByte_errDomain : (completeByte s).errDomain = s.errDomain := by unfold completeByte; split <;> rfl
@[simp] theorem completeByte_errRange : (completeByte s).errRange = s.errRange := by unfold completeByte; split <;> rfl
@[simp] theorem completeByte_responses : (completeByte s).responses = s.responses := by unfold completeByte; split <;> rfl
@[simp] theorem completeByte_inputs : (completeByte s).inputs = s.inputs := by unfold completeByte; split <;> rfl
@[simp] theorem completeByte_draws : (completeByte s).draws = s.draws := by unfold completeByte; split <;> rfl
@[simp] theorem completeByte_wasReset : (completeByte s).wasReset = s.wasReset := by unfold completeByte; split <;> rfl

/-! ### `encodeBit` -/

@[simp] theorem encodeBit_config (bit : Bool) : (encodeBit bit s).config = s.config := by simp [encodeBit]
@[simp] theorem encodeBit_phase (bit : Bool) : (encodeBit bit s).phase = s.phase := by simp [encodeBit]
@[simp] theorem encodeBit_g (bit : Bool) : (encodeBit bit s).g = s.g := by simp [encodeBit]
@[simp] theorem encodeBit_errIllegal (bit : Bool) : (encodeBit bit s).errIllegal = s.errIllegal := by simp [encodeBit]
@[simp] theorem encodeBit_errProtocol (bit : Bool) : (encodeBit bit s).errProtocol = s.errProtocol := by simp [encodeBit]
@[simp] theorem encodeBit_errDomain (bit : Bool) : (encodeBit bit s).errDomain = s.errDomain := by simp [encodeBit]
@[simp] theorem encodeBit_errRange (bit : Bool) : (encodeBit bit s).errRange = s.errRange := by simp [encodeBit]
@[simp] theorem encodeBit_responses (bit : Bool) : (encodeBit bit s).responses = s.responses := by simp [encodeBit]
@[simp] theorem encodeBit_inputs (bit : Bool) : (encodeBit bit s).inputs = s.inputs := by simp [encodeBit]
@[simp] theorem encodeBit_draws (bit : Bool) : (encodeBit bit s).draws = s.draws := by simp [encodeBit]
@[simp] theorem encodeBit_wasReset (bit : Bool) : (encodeBit bit s).wasReset = s.wasReset := by simp [encodeBit]
@[simp] theorem encodeBit_delta (bit : Bool) : (encodeBit bit s).delta = stepDelta bit s.delta := by simp [encodeBit]
@[simp] theorem encodeBit_acc (bit : Bool) : (encodeBit bit s).acc = packBit bit s.acc := by simp [encodeBit]

/-! ### `padFiller` -/

/-- Length alignment changes `OUT` and `OUT_LEN` alone. -/
theorem padFiller_frame (fuel : Nat) (s : State) :
    padFiller fuel s = { s with out := (padFiller fuel s).out, outLen := (padFiller fuel s).outLen } := by
  induction fuel generalizing s with
  | zero => rfl
  | succ fuel ih =>
    unfold padFiller
    split
    · exact (ih _).trans rfl
    · rfl

@[simp] theorem padFiller_config (fuel : Nat) : (padFiller fuel s).config = s.config := by rw [padFiller_frame]
@[simp] theorem padFiller_phase (fuel : Nat) : (padFiller fuel s).phase = s.phase := by rw [padFiller_frame]
@[simp] theorem padFiller_g (fuel : Nat) : (padFiller fuel s).g = s.g := by rw [padFiller_frame]
@[simp] theorem padFiller_delta (fuel : Nat) : (padFiller fuel s).delta = s.delta := by rw [padFiller_frame]
@[simp] theorem padFiller_acc (fuel : Nat) : (padFiller fuel s).acc = s.acc := by rw [padFiller_frame]
@[simp] theorem padFiller_nbits (fuel : Nat) : (padFiller fuel s).nbits = s.nbits := by rw [padFiller_frame]
@[simp] theorem padFiller_errIllegal (fuel : Nat) : (padFiller fuel s).errIllegal = s.errIllegal := by rw [padFiller_frame]
@[simp] theorem padFiller_errProtocol (fuel : Nat) :
    (padFiller fuel s).errProtocol = s.errProtocol := by rw [padFiller_frame]
@[simp] theorem padFiller_errDomain (fuel : Nat) : (padFiller fuel s).errDomain = s.errDomain := by rw [padFiller_frame]
@[simp] theorem padFiller_errRange (fuel : Nat) : (padFiller fuel s).errRange = s.errRange := by rw [padFiller_frame]
@[simp] theorem padFiller_responses (fuel : Nat) : (padFiller fuel s).responses = s.responses := by rw [padFiller_frame]
@[simp] theorem padFiller_inputs (fuel : Nat) : (padFiller fuel s).inputs = s.inputs := by rw [padFiller_frame]
@[simp] theorem padFiller_draws (fuel : Nat) : (padFiller fuel s).draws = s.draws := by rw [padFiller_frame]
@[simp] theorem padFiller_wasReset (fuel : Nat) : (padFiller fuel s).wasReset = s.wasReset := by rw [padFiller_frame]

/-! ### `alignLength` -/

@[simp] theorem alignLength_config : (alignLength s).config = s.config := by simp [alignLength]
@[simp] theorem alignLength_phase : (alignLength s).phase = s.phase := by simp [alignLength]
@[simp] theorem alignLength_g : (alignLength s).g = s.g := by simp [alignLength]
@[simp] theorem alignLength_delta : (alignLength s).delta = s.delta := by simp [alignLength]
@[simp] theorem alignLength_acc : (alignLength s).acc = s.acc := by simp [alignLength]
@[simp] theorem alignLength_nbits : (alignLength s).nbits = s.nbits := by simp [alignLength]
@[simp] theorem alignLength_errIllegal : (alignLength s).errIllegal = s.errIllegal := by simp [alignLength]
@[simp] theorem alignLength_errProtocol : (alignLength s).errProtocol = s.errProtocol := by simp [alignLength]
@[simp] theorem alignLength_errDomain : (alignLength s).errDomain = s.errDomain := by simp [alignLength]
@[simp] theorem alignLength_errRange : (alignLength s).errRange = s.errRange := by simp [alignLength]
@[simp] theorem alignLength_responses : (alignLength s).responses = s.responses := by simp [alignLength]
@[simp] theorem alignLength_inputs : (alignLength s).inputs = s.inputs := by simp [alignLength]
@[simp] theorem alignLength_draws : (alignLength s).draws = s.draws := by simp [alignLength]
@[simp] theorem alignLength_wasReset : (alignLength s).wasReset = s.wasReset := by simp [alignLength]

end Sys2Proof.Machine
end

