-- ==== Sys2Proof/Laws/Ops.lean ====
section
/-! SUPPORT. One specification per shared operation, which proofs cite instead of unfolding the operation. -/

namespace Sys2Proof.Machine

theorem isFull_iff (s : State) : isFull s = true ↔ s.outLen.toNat = s.config.params.maxCapacity := by
  simp [isFull]

theorem isFull_eq_false_iff (s : State) : isFull s = false ↔ s.outLen.toNat ≠ s.config.params.maxCapacity := by
  simp [isFull]

/-- Append adds one to the length wherever its precondition holds. -/
theorem append_outLen_toNat (v : Byte) (s : State) (h : s.outLen.toNat < s.config.params.maxCapacity) :
    (append v s).outLen.toNat = s.outLen.toNat + 1 := by
  have := Config.capacity_le s.config
  have one : (1 : BitVec 32).toNat = 1 := rfl
  rw [append_outLen, BitVec.toNat_add, one]
  omega

/-- Append writes the byte at the old length and no other byte. -/
theorem memRead_append (v : Byte) (s : State) (a : Nat) :
    memRead (append v s).out a = if a = s.outLen.toNat then some v else memRead s.out a := by
  rw [append_out, memRead_memWrite]

theorem completing_iff (n : BitVec 3) : n.toNat + 1 = bitsPerByte ↔ n = 7 := by
  revert n
  decide

/-- The eighth bit of a group: `ACC` with the new bit is appended at `OUT_LEN` and the count returns to 0. -/
theorem encodeBit_eighth (bit : Bool) (s : State) (h : s.nbits = 7) :
    encodeBit bit s = { s with
      delta := stepDelta bit s.delta
      acc := packBit bit s.acc
      nbits := 0
      outLen := s.outLen + 1
      out := memWrite s.out s.outLen.toNat (packBit bit s.acc) } := by
  unfold encodeBit completeByte
  rw [if_pos ((completing_iff _).2 h)]
  rfl

/-- Any other bit of a group is only counted. -/
theorem encodeBit_counted (bit : Bool) (s : State) (h : s.nbits ≠ 7) :
    encodeBit bit s = { s with
      delta := stepDelta bit s.delta
      acc := packBit bit s.acc
      nbits := s.nbits + 1 } := by
  unfold encodeBit completeByte
  rw [if_neg (fun h' => h ((completing_iff _).1 h'))]

/-- The counter's step in natural numbers. -/
theorem stepDelta_toNat (bit : Bool) (d : BitVec 6) :
    (stepDelta bit d).toNat
      = if bit then (if d.toNat = 63 then 63 else d.toNat + 1) else (if d.toNat = 0 then 0 else d.toNat - 1) := by
  revert bit d
  decide

/-- The packed accumulator in natural numbers. -/
theorem packBit_toNat (bit : Bool) (acc : Byte) : (packBit bit acc).toNat = acc.toNat / 2 + 128 * bit.toNat := by
  cases bit <;> simp only [packBit, BitVec.toNat_or, BitVec.toNat_ushiftRight]
  · simp [Nat.shiftRight_eq_div_pow]
  · have h : acc.toNat >>> 1 < 2 ^ 7 := by
      have := acc.isLt
      rw [Nat.shiftRight_eq_div_pow]
      omega
    have one : ((BitVec.ofBool true).setWidth 8 <<< 7 : BitVec 8).toNat = 1 <<< 7 := by decide
    rw [one, Nat.or_comm, ← Nat.shiftLeft_add_eq_or_of_lt h, Nat.shiftRight_eq_div_pow]
    simp
    omega

/-- The length alignment loop: how far it gets, what it writes, and that it writes nothing else. -/
theorem padFiller_spec (fuel : Nat) (s : State) :
    (padFiller fuel s).outLen.toNat
        = (if s.config.params.maxCapacity ≤ s.outLen.toNat then s.outLen.toNat
           else min s.config.params.maxCapacity (s.outLen.toNat + min fuel ((17 - s.outLen.toNat % 16) % 16)))
    ∧ (∀ a, memRead (padFiller fuel s).out a
        = if s.outLen.toNat ≤ a ∧ a < (padFiller fuel s).outLen.toNat then some fillByte else memRead s.out a)
    ∧ (Memory.wf s.out = true → Memory.wf (padFiller fuel s).out = true) := by
  induction fuel generalizing s with
  | zero =>
    refine ⟨?_, ?_, id⟩
    · simp only [padFiller]; split <;> omega
    · intro a
      change memRead s.out a = if s.outLen.toNat ≤ a ∧ a < s.outLen.toNat then some fillByte else memRead s.out a
      rw [if_neg (by omega)]
  | succ fuel ih =>
    unfold padFiller
    split
    · next h =>
      simp only [alignModulus, alignResidue] at h
      have hl := append_outLen_toNat fillByte s h.1
      obtain ⟨h1, h2, h3⟩ := ih (append fillByte s)
      simp only [append_config, hl] at h1 h2
      refine ⟨?_, ?_, fun hw => h3 (memWrite_wf _ _ _ hw)⟩
      · rw [h1]; split <;> split <;> omega
      · intro a
        rw [h2, memRead_append]
        have : s.outLen.toNat + 1 ≤ (padFiller fuel (append fillByte s)).outLen.toNat := by
          rw [h1]; split <;> omega
        split_ifs <;> first | rfl | omega
    · next h =>
      simp only [alignModulus, alignResidue] at h
      refine ⟨?_, ?_, id⟩
      · split
        · rfl
        · have : s.outLen.toNat % 16 = 1 := by by_contra hn; exact h ⟨by omega, hn⟩
          omega
      · intro a; rw [if_neg (by omega)]

end Sys2Proof.Machine
end

