-- ==== Sys2Proof/Laws/Exec.lean ====
section
/-! SUPPORT. What a command and a step can do, said once: proofs over all commands cite these instead of unfolding `exec` and
`step`. -/

namespace Sys2Proof.Machine

/-- Everything a command that completes can have done. -/
theorem exec_next_cases {i : Instr} {s t : State} (h : exec i s = .next t) :
    (∃ g, i = .start g ∧ gainAccepted s.config.params g = true ∧ t = beginConversion g s)
    ∨ (∃ g, i = .start g ∧ gainAccepted s.config.params g = false ∧ t = raise .domain s)
    ∨ (∃ x, i = .sample x ∧ s.phase ≠ .encoding ∧ t = raise .protocol s)
    ∨ (∃ x, i = .sample x ∧ s.phase = .encoding ∧ isFull s = true ∧ t = s)
    ∨ (∃ x, i = .sample x ∧ s.phase = .encoding ∧ isFull s = false ∧ isNaN x = true ∧ t = raise .domain s)
    ∨ (∃ x, i = .sample x ∧ s.phase = .encoding ∧ isFull s = false ∧ isNaN x = false ∧ t = encodeSample x s)
    ∨ (i = .finish ∧ s.phase ≠ .encoding ∧ t = raise .protocol s)
    ∨ (i = .finish ∧ s.phase = .encoding ∧ t = { alignLength s with phase := .done })
    ∨ (∃ index, i = .rdbyte index ∧ s.outLen ≤ index ∧ t = respondAny (raise .range s))
    ∨ (∃ index b, i = .rdbyte index ∧ ¬ s.outLen ≤ index ∧ memRead s.out index.toNat = some b
        ∧ t = respond (b.setWidth 32) s)
    ∨ (i = .rdlen ∧ t = respond s.outLen s)
    ∨ (i = .rdstat ∧ t = respond (statusWord s) s)
    ∨ (i = .rddbg ∧ t = respond (debugWord s) s)
    ∨ (∃ w, i = .illegal w ∧ t = raise .illegal s) := by
  cases i with
  | start g =>
    simp only [exec, execStart, Host.Outcome.next.injEq] at h
    cases hg : gainAccepted s.config.params g <;> simp_all
  | sample x =>
    simp only [exec, execSample, Host.Outcome.next.injEq] at h
    by_cases hp : s.phase = .encoding
    · cases hf : isFull s <;> cases hn : isNaN x <;> simp_all
    · simp_all
  | finish =>
    simp only [exec, execFinish, Host.Outcome.next.injEq] at h
    by_cases hp : s.phase = .encoding <;> simp_all
  | rdbyte index =>
    simp only [exec, execRdbyte] at h
    split at h
    · next hle => simp_all
    · next hle =>
      split at h
      · next b hb => simp_all
      · cases h
  | rdlen => simp_all [exec, execRdlen]
  | rdstat => simp_all [exec, execRdstat]
  | rddbg => simp_all [exec, execRddbg]
  | illegal w => simp_all [exec, execIllegal]

/-- A command stops only where RDBYTE meets an UNWRITTEN byte below the length. -/
theorem exec_fault_cases {i : Instr} {s : State} {r : Fault} (h : exec i s = .fault r) :
    ∃ index, i = .rdbyte index ∧ ¬ s.outLen ≤ index ∧ memRead s.out index.toNat = none ∧ r = .unwrittenByte := by
  cases i with
  | rdbyte index =>
    simp only [exec, execRdbyte] at h
    split at h
    · cases h
    · next hle =>
      split at h
      · cases h
      · next hb => cases h; exact ⟨index, rfl, hle, hb, rfl⟩
  | start _ | sample _ | finish | rdlen | rdstat | rddbg | illegal _ => cases h

/-- No command is refused by its meaning. -/
theorem exec_not_refused (i : Instr) (s : State) (r : Refusal) : exec i s ≠ .refused r := by
  intro h
  cases i with
  | rdbyte index =>
    simp only [exec, execRdbyte] at h
    split at h
    · cases h
    · split at h <;> cases h
  | start _ | sample _ | finish | rdlen | rdstat | rddbg | illegal _ => cases h

/-- Everything a step that completes can have done. -/
theorem step_next_cases {s t : State} (h : step s = .next t) :
    (s.inputs = [] ∧ t = s)
    ∨ (∃ rest, s.inputs = .reset :: rest ∧ t = assertReset { s with inputs := rest })
    ∨ (∃ rest, s.inputs = .takeResponse :: rest ∧ s.wasReset = true ∧ t = takeResponse { s with inputs := rest })
    ∨ (∃ w rest, s.inputs = .command w :: rest ∧ s.wasReset = true
        ∧ exec (decode w) { s with inputs := rest } = .next t) := by
  unfold step at h
  split at h
  · next hi => cases h; exact .inl ⟨hi, rfl⟩
  · next rest hi => cases h; exact .inr (.inl ⟨rest, hi, rfl⟩)
  · next rest hi =>
    split at h
    · next hr => cases h; exact .inr (.inr (.inl ⟨rest, hi, hr, rfl⟩))
    · cases h
  · next w rest hi =>
    split at h
    · next hr => exact .inr (.inr (.inr ⟨w, rest, hi, hr, h⟩))
    · cases h

end Sys2Proof.Machine
end

