-- ==== Sys2Proof/Laws/Fields.lean ====
section
/-! SUPPORT. The fields of a command word as numbers, and a word put together from its fields. -/

namespace Sys2Proof

theorem opField_toNat (w : CommandWord) : (opField w).toNat = w.toNat / 2 ^ 60 := by
  have := w.isLt
  simp only [opField, BitVec.extractLsb'_toNat, Nat.shiftRight_eq_div_pow]
  omega

theorem rsvField_toNat (w : CommandWord) : (rsvField w).toNat = w.toNat / 2 ^ 32 % 2 ^ 28 := by
  simp only [rsvField, BitVec.extractLsb'_toNat, Nat.shiftRight_eq_div_pow]

theorem opndField_toNat (w : CommandWord) : (opndField w).toNat = w.toNat % 2 ^ 32 := by
  simp only [opndField, BitVec.extractLsb'_toNat, Nat.shiftRight_zero]

theorem commandWord_toNat (op : BitVec 4) (opnd : BitVec 32) :
    (commandWord op opnd).toNat = op.toNat * 2 ^ 60 + opnd.toNat := by
  unfold commandWord
  simp only [BitVec.toNat_append, BitVec.toNat_ofNat, Nat.zero_mod, Nat.or_zero]
  rw [← Nat.shiftLeft_add_eq_or_of_lt opnd.isLt, Nat.shiftLeft_eq, Nat.shiftLeft_eq]
  omega

@[simp] theorem opField_commandWord (op : BitVec 4) (opnd : BitVec 32) : opField (commandWord op opnd) = op := by
  apply BitVec.eq_of_toNat_eq
  have := opnd.isLt
  rw [opField_toNat, commandWord_toNat]
  omega

@[simp] theorem rsvField_commandWord (op : BitVec 4) (opnd : BitVec 32) : rsvField (commandWord op opnd) = 0 := by
  apply BitVec.eq_of_toNat_eq
  have := opnd.isLt
  rw [rsvField_toNat, commandWord_toNat]
  simp
  omega

@[simp] theorem opndField_commandWord (op : BitVec 4) (opnd : BitVec 32) : opndField (commandWord op opnd) = opnd := by
  apply BitVec.eq_of_toNat_eq
  have := opnd.isLt
  rw [opndField_toNat, commandWord_toNat]
  omega

/-- A word with a zero reserved field is made of its other two fields. -/
theorem commandWord_fields (w : CommandWord) (h : rsvField w = 0) : commandWord (opField w) (opndField w) = w := by
  have hr : (rsvField w).toNat = 0 := by rw [h]; rfl
  apply BitVec.eq_of_toNat_eq
  rw [rsvField_toNat] at hr
  rw [commandWord_toNat, opField_toNat, opndField_toNat]
  omega

end Sys2Proof
end

