-- ==== Sys2Proof/Laws/PerInstr.lean ====
section
/-! SUPPORT. Facts stated for every instruction, one lemma per constructor. -/

namespace Sys2Proof.Laws.EncodedLegality

open Sys2Proof

/-- The word of a well-formed instruction is illegal in the sense of 30_encoding.md R73 exactly for the row ILLEGAL. -/
def Statement (i : Instr) : Prop :=
  i.wellFormed = true → (illegalReason (encode i) = none ↔ ∀ w, i ≠ .illegal w)

theorem start (gainDb : Binary32) : Statement (.start gainDb) := by
  intro _
  simp [illegalReason, encode, opStart]

theorem sample (x : Binary32) : Statement (.sample x) := by
  intro _
  simp [illegalReason, encode, opSample]

theorem finish : Statement .finish := by
  intro _
  simp [illegalReason, encode, opFinish]

theorem rdbyte (index : BitVec 32) : Statement (.rdbyte index) := by
  intro _
  simp [illegalReason, encode, opRdbyte]

theorem rdlen : Statement .rdlen := by
  intro _
  simp [illegalReason, encode, opRdlen]

theorem rdstat : Statement .rdstat := by
  intro _
  simp [illegalReason, encode, opRdstat]

theorem rddbg : Statement .rddbg := by
  intro _
  simp [illegalReason, encode, opRddbg]

theorem illegal (word : CommandWord) : Statement (.illegal word) := by
  intro h
  have hr : illegalReason word ≠ none := by
    intro hn
    simp [Instr.wellFormed, Instr.illFormed, hn] at h
  simp [encode, hr]

end Sys2Proof.Laws.EncodedLegality
end

