-- ==== Sys2Proof/Tests/Slice0.lean ====
section
/-! SUPPORT. The model's own tests: the ill-formed terms the checks refuse, words decoded, vectors of 95_test_vectors.md, and for
each statement with hypotheses a state and operands that meet them. Expected values are the spec's. -/

namespace Sys2Proof.Tests

open Sys2Proof Sys2Proof.Machine

/-! ### Helpers -/

/-- A `DB_TO_LINEAR` of these tests' own: 10^(6/20) at 6 dB, and values R6 does not limit outside -12 dB to 12 dB and at a NaN. -/
def gains : GainTable := [(0x40C00000, 0x3FFF64C1), (0x41C00000, 0x80000000), (0x7FC00000, 0x7FC00000)]

/-- The example instantiation REF (00_scope.md R7), the gain range -12 dB to 12 dB of these tests' own. -/
def refConfig : Config := { params := ⟨4081, 0x47000000, 0x44800000, 0xC1400000, 0x41400000, gains⟩ }

/-- REF2: CLAMP_LIMIT 65536.0. -/
def ref2Config : Config := { params := ⟨4081, 0x47800000, 0x44800000, 0xC1400000, 0x41400000, gains⟩ }

/-- Capacity 20, of V-F7. -/
def cap20Config : Config := { params := ⟨20, 0x47000000, 0x44800000, 0xC1400000, 0x41400000, gains⟩ }

/-- Capacity 1. -/
def cap1Config : Config := { params := ⟨1, 0x47000000, 0x44800000, 0xC1400000, 0x41400000, gains⟩ }

/-- Capacity 0, of V-F8. -/
def cap0Config : Config := { params := ⟨0, 0x47000000, 0x44800000, 0xC1400000, 0x41400000, gains⟩ }

/-- ENCODING at gain 1.0, nothing appended, with the given counter. -/
def encodingAt (c : Config) (delta : BitVec 6) : State :=
  { State.resetOf c with phase := .encoding, g := 0x3F800000, delta := delta }

/-- ENCODING with a length and nothing readable, for the length's own rules. -/
def encodingLength (c : Config) (n : BitVec 32) : State := { encodingAt c 32 with outLen := n }

/-- ENCODING with one byte 0x0F appended. -/
def oneByte (c : Config) : State := { encodingAt c 32 with outLen := 1, out := [(0, 0x0F)] }

/-- The next state of an outcome. -/
def nextOf : Host.Outcome State Fault Refusal → Option State
  | .next s => some s
  | .fault _ => none
  | .refused _ => none

/-- What a command leaves, through one view of the state. -/
def afterCommand {α : Type} (view : State → α) (i : Instr) (s : State) : Option α := (nextOf (exec i s)).map view

/-! ### Well-formedness -/

/-- A legal command word is no ILLEGAL. -/
theorem test_illFormed_legal_word : (Instr.illegal 0x3000000000000000).illFormed = some .legalWordAsIllegal := by decide
theorem test_wellFormed_illegal_word : (Instr.illegal 0x3000000000000001).wellFormed = true := by decide

/-! ### Decoding: words written out from 30_encoding.md R70 and section 7 -/

theorem test_decode_start : decode 0x1000000041400000 = .start 0x41400000 := by decide
theorem test_decode_sample : decode 0x20000000C4000000 = .sample 0xC4000000 := by decide
theorem test_decode_finish : decode 0x3000000000000000 = .finish := by decide
theorem test_decode_rdbyte : decode 0x4000000000000010 = .rdbyte 16 := by decide
theorem test_decode_rdlen : decode 0x5000000000000000 = .rdlen := by decide
theorem test_decode_rdstat : decode 0x6000000000000000 = .rdstat := by decide
theorem test_decode_rddbg : decode 0x7000000000000000 = .rddbg := by decide
/-- V-D5 to V-D10. -/
theorem test_decode_illegal :
    [0x0000000000000000, 0x8000000000000000, 0xF000000000000000, 0x2000000100000000, 0x3000000000000001,
      0x6000000080000000].all (fun w : CommandWord => decode w == .illegal w) = true := by decide
theorem test_illegalReason :
    [0x8000000000000000, 0x2000000100000000, 0x3000000000000001, 0x3000000000000000].map illegalReason
      = [some .reservedOpcode, some .reservedBitsSet, some .operandNotZero, none] := by decide

/-! ### Arithmetic: patterns of 93_implementation_defined.md G5 and sums by hand -/

theorem test_floatOfNat : floatOfNat 32 = 0x42000000 ∧ floatOfNat 1024 = 0x44800000 := by decide
/-- -0.5 + 32 = 31.5; 1024 / 1024 = 1. -/
theorem test_fadd_fdiv : fadd 0xBF000000 0x42000000 = 0x41FC0000 ∧ fdiv 0x44800000 0x44800000 = 0x3F800000 := by decide
/-- The smallest subnormal times a half is a tie, and 0 is even; the largest finite value times 2 overflows. -/
theorem test_fmul_edges : fmul 0x00000001 0x3F000000 = 0x00000000 ∧ fmul 0x7F7FFFFF 0x40000000 = 0x7F800000 := by decide

/-! ### Commands: vectors of 95_test_vectors.md -/

/-- V-T4. -/
theorem test_start_minus_zero :
    afterCommand (fun t => (t.phase, t.g, t.delta)) (.start 0x80000000) (State.resetOf refConfig)
      = some (.encoding, 0x3F800000, 32) := by decide
/-- 40_start.md R103: the instance's own function at 6 dB. -/
theorem test_start_latches_the_gain :
    afterCommand State.g (.start 0x40C00000) (State.resetOf refConfig) = some 0x3FFF64C1 := by decide
/-- V-T8. -/
theorem test_start_nan_keeps_conversion :
    afterCommand (fun t => (t.errDomain, t.outLen, t.phase)) (.start 0x7FC00000) (encodingLength refConfig 3)
      = some (true, 3, .encoding) := by decide
/-- V-S6. -/
theorem test_sample_rounds_first : afterCommand State.delta (.sample 0xB8D1B717) (encodingAt refConfig 32) = some 33 := by
  decide
/-- V-S18: the gained sample overflows. -/
theorem test_sample_overflows :
    afterCommand (fun t => (t.delta, t.acc)) (.sample 0x44800000) { encodingAt refConfig 63 with g := 0x7F7FFFFF }
      = some (63, 0x80) := by decide
/-- V-S9. -/
theorem test_sample_not_truncated :
    afterCommand (fun t => (t.delta, t.acc)) (.sample 0xC7020000) (encodingAt ref2Config 0) = some (0, 0x00) := by decide
/-- V-F7: the bytes too. -/
theorem test_finish_stops_at_capacity :
    afterCommand (fun t => (t.outLen, t.out)) .finish (encodingLength cap20Config 18)
      = some (20, [(18, 0xAA), (19, 0xAA)]) := by decide
/-- V-F6. -/
theorem test_finish_aligns : afterCommand State.outLen .finish (encodingLength refConfig 18) = some 33 := by decide
/-- V-R6. -/
theorem test_rdbyte_in_range : afterCommand State.responses (.rdbyte 0) (oneByte refConfig) = some [0x0000000F] := by decide
/-- V-R7. -/
theorem test_rdbyte_out_of_range :
    afterCommand (fun t => (t.errRange, t.responses.length)) (.rdbyte 1) (oneByte refConfig) = some (true, 1) := by decide
/-- V-R4 after one byte. -/
theorem test_rdlen : afterCommand State.responses .rdlen (oneByte refConfig) = some [0x00000001] := by decide
/-- V-T1. -/
theorem test_rdstat_encoding : afterCommand State.responses .rdstat (encodingAt refConfig 32) = some [0x00000009] := by decide
/-- V-R2. -/
theorem test_rdstat_full : afterCommand State.responses .rdstat (State.resetOf cap0Config) = some [0x00000004] := by decide
/-- V-R8. -/
theorem test_rddbg :
    afterCommand State.responses .rddbg { encodingAt refConfig 33 with acc := 0x80, nbits := 1 } = some [0x00012180] := by
  decide
/-- V-D8: one step of the word, no SAMPLE effect. -/
theorem test_illegal_step :
    (nextOf (step ((encodingAt refConfig 32).withFetchWord 64 0x2000000100000000))).map (fun t => (t.errIllegal, t.nbits))
      = some (true, 0) := by decide
/-- 60_exceptions.md R200. -/
theorem test_errCause : [ErrFlag.illegal, .protocol, .domain, .range].map errCause = [0, 1, 2, 3] := by decide

/-! ### The assembler: 30_encoding.md R78 -/

/-- `SAMPLE -512.0`, of section 7. -/
theorem test_readLine_sample :
    (readLine ['S', 'A', 'M', 'P', 'L', 'E', ' ', '-', '5', '1', '2', '.', '0']).bind assemble
      = some [0x20000000C4000000] := by decide
/-- `RDBYTE 0x10 ; x`. -/
theorem test_readLine_rdbyte :
    (readLine ['R', 'D', 'B', 'Y', 'T', 'E', ' ', '0', 'x', '1', '0', ' ', ';', ' ', 'x']).bind assemble
      = some [0x4000000000000010] := by decide
/-- `SAMPLEN inf, 2`. -/
theorem test_readLine_sampleN :
    (readLine ['S', 'A', 'M', 'P', 'L', 'E', 'N', ' ', 'i', 'n', 'f', ',', ' ', '2']).bind assemble
      = some [0x200000007F800000, 0x200000007F800000] := by decide
/-- V-S6's operand: -0.0001 is 0xB8D1B717. -/
theorem test_floatBits : floatBits (.decimal true 1 4) = 0xB8D1B717 := by decide

/-! ### Invariant states -/

/-- A state of a conversion with nothing appended meets the invariants. -/
theorem invariants_encodingAt (c : Config) (d : BitVec 6) :
    Invariants (encodingAt c d) where
  delta_range := by have := d.isLt; change d.toNat ≤ 63; omega
  nbits_range := by
    change (0 : BitVec 3).toNat ≤ 7
    decide
  length_bound := Nat.zero_le _
  written_iff i := ⟨fun h => absurd h (by simp [encodingAt, State.resetOf]), fun h => absurd h (Nat.not_lt_zero i)⟩
  full_no_partial _ _ := rfl
  done_aligned h := by cases h
  gain_positive _ := by
    change positiveFinite 0x3F800000 = true
    decide
  out_canonical := rfl

/-- A state of a conversion with one byte appended meets them. -/
theorem invariants_oneByte : Invariants (oneByte refConfig) where
  delta_range := by decide
  nbits_range := by decide
  length_bound := by decide
  written_iff i := by
    change (if i = 0 then some (0x0F : Byte) else none).isSome = true ↔ i < 1
    split <;> simp <;> omega
  full_no_partial h := absurd h (by decide)
  done_aligned h := by cases h
  gain_positive _ := by decide
  out_canonical := by decide

/-! ### Witnesses: one theorem for each statement with hypotheses, at the edges of its clauses -/

theorem witness_EncodedInstructionsDecodeBack :
    (Instr.start 0xFFFFFFFF).wellFormed = true ∧ (Instr.illegal 0xFFFFFFFFFFFFFFFF).wellFormed = true := by decide

/-- One word for each case: OP 0, OP 8, RSV, OPND of FINISH and of RDDBG; and the legal words at both ends. -/
theorem witness_IllegalWordsAreTheThreeCases :
    (0x0FFFFFFFFFFFFFFF : CommandWord).toNat / 2 ^ 60 = 0
    ∧ 8 ≤ (0x8000000000000000 : CommandWord).toNat / 2 ^ 60
    ∧ (0x1000000100000000 : CommandWord).toNat / 2 ^ 32 % 2 ^ 28 ≠ 0
    ∧ ((0x3000000000000001 : CommandWord).toNat / 2 ^ 60 = 3 ∧ (0x3000000000000001 : CommandWord).toNat % 2 ^ 32 ≠ 0)
    ∧ ((0x7000000080000000 : CommandWord).toNat / 2 ^ 60 = 7 ∧ (0x7000000080000000 : CommandWord).toNat % 2 ^ 32 ≠ 0)
    ∧ ((0x10000000FFFFFFFF : CommandWord).toNat / 2 ^ 60 = 1 ∧ (0x10000000FFFFFFFF : CommandWord).toNat / 2 ^ 32 % 2 ^ 28 = 0)
    ∧ ((0x7000000000000000 : CommandWord).toNat / 2 ^ 60 = 7 ∧ (0x7000000000000000 : CommandWord).toNat % 2 ^ 32 = 0) := by
  decide

theorem witness_AssembledLinesDecodeBack :
    1 ≤ 1 ∧ (2 ^ 32 - 1 : Nat) < 2 ^ 32 ∧ (2 ^ 64 - 1 : Nat) < 2 ^ 64 := by decide

theorem witness_ConfigurationsMeetTheConditions :
    refConfig.params.legal = true ∧ cap0Config.params.maxCapacity = 0
    ∧ (⟨2 ^ 32, 0x47000000, 0x44800000, 0, 0, []⟩ : Params).legal = false
    ∧ (⟨1, 0x00000000, 0x44800000, 0, 0, []⟩ : Params).legal = false
    ∧ (⟨1, 0x47000000, 0x44800000, 0, 0, [(0x80000000, 0x40000000)]⟩ : Params).legal = false
    ∧ (⟨1, 0x47000000, 0x44800000, 0, 0x41400000, [(0x41400000, 0x7F800000)]⟩ : Params).legal = false
    ∧ (⟨1, 0x47000000, 0x44800000, 0xC1400000, 0, [(0xC1400000, 0x00000000)]⟩ : Params).legal = false := by decide
/-- Any gain function with the parameters of REF, here the constant 1.0. -/
theorem witness_EveryGainFunctionIsConfigured : MeetsConditions refConfig.params (fun _ => 0x3F800000) where
  capacity := by decide
  clamp := by decide
  divisor := by decide
  gainMin := by decide
  gainMax := by decide
  gainInRange _ _ _ _ := by decide
  gainAtZero := by decide

/-- One operand of each class: finite at both ends, infinite, zero, NaN. -/
theorem witness_MultiplicationIsCorrectlyRounded :
    isFinite 0x00000001 = true ∧ isFinite 0xFF7FFFFF = true ∧ isInfinite 0xFF800000 = true ∧ isNaN 0x7F800001 = true
    ∧ isNaN 0x7F800000 = false ∧ isZero 0x7F800000 = false ∧ isZero 0x80000000 = true := by decide
theorem witness_DivisionIsCorrectlyRounded :
    isFinite 0x7F7FFFFF = true ∧ isFinite 0x80000001 = true ∧ isZero 0x80000001 = false ∧ isInfinite 0xFF800000 = true
    ∧ isZero 0x80000000 = true ∧ isNaN 0xFFFFFFFF = true := by decide
theorem witness_AdditionIsCorrectlyRounded :
    isFinite 0x7F7FFFFF = true ∧ isFinite 0x80000000 = true ∧ isInfinite 0x7F800000 = true ∧ isInfinite 0xFF800000 = true
    ∧ f32Sign 0x7F800000 ≠ f32Sign 0xFF800000 ∧ isNaN 0x7FC00000 = true := by decide
theorem witness_ComparisonsFollowTheValues :
    isFinite 0x00000000 = true ∧ isFinite 0x80000000 = true ∧ isNaN 0x7F800001 = true := by decide

/-- A gain at each bound. -/
theorem witness_AcceptedStartBeginsAConversion :
    (isNaN 0xC1400000 = false ∧ flt 0xC1400000 (oneByte refConfig).config.params.gainDbMin = false
      ∧ fgt 0xC1400000 (oneByte refConfig).config.params.gainDbMax = false)
    ∧ isNaN 0x41400000 = false ∧ flt 0x41400000 (oneByte refConfig).config.params.gainDbMin = false
      ∧ fgt 0x41400000 (oneByte refConfig).config.params.gainDbMax = false := by decide
/-- A NaN, and the neighbours of both bounds outside the range. -/
theorem witness_StartOutsideTheGainRangeRaises :
    isNaN 0xFFFFFFFF = true ∧ flt 0xC1400001 (oneByte refConfig).config.params.gainDbMin = true
    ∧ fgt 0x41400001 (oneByte refConfig).config.params.gainDbMax = true := by decide
theorem witness_AcceptedStartForgetsTheEarlierConversion :
    gainAccepted (oneByte refConfig).config.params 0x41400000 = true
    ∧ gainAccepted (oneByte refConfig).config.params 0x80000000 = true := by decide

theorem witness_SampleOutsideAConversionRaises :
    (State.resetOf refConfig).phase ≠ .encoding ∧ { oneByte refConfig with phase := .done }.phase ≠ .encoding := by decide
theorem witness_SampleAtCapacityHasNoEffect :
    (oneByte cap1Config).phase = .encoding
    ∧ (oneByte cap1Config).outLen.toNat = (oneByte cap1Config).config.params.maxCapacity := by decide
theorem witness_NaNSampleRaises :
    (encodingAt cap1Config 40).phase = .encoding
    ∧ (encodingAt cap1Config 40).outLen.toNat < (encodingAt cap1Config 40).config.params.maxCapacity
    ∧ isNaN 0x7F800001 = true := by decide
/-- Both clauses: the eighth bit, and the one before it. -/
theorem witness_AcceptedSampleEncodesOneBit :
    ∀ n ∈ [(7 : BitVec 3), 6],
      let s : State := { encodingAt cap1Config 63 with nbits := n }
      s.phase = .encoding ∧ s.outLen.toNat < s.config.params.maxCapacity ∧ isNaN 0x7F800000 = false
        ∧ (s.nbits.toNat = 7 ↔ n = 7) := by decide
/-- A sample above, below and inside the range, at its edges. -/
theorem witness_ClampSelectsTheNearestBound :
    isNaN 0x47000001 = false ∧ fgt 0x47000001 refConfig.params.clampLimit = true
    ∧ flt 0xC7000001 (fneg refConfig.params.clampLimit) = true
    ∧ fgt 0xC7000000 refConfig.params.clampLimit = false
    ∧ flt 0xC7000000 (fneg refConfig.params.clampLimit) = false := by decide
theorem witness_ScaledSampleIsNeverNaN :
    positiveFinite 0x7F7FFFFF = true ∧ positiveFinite 0x00000001 = true ∧ isNaN 0xFF800000 = false := by decide
/-- A sample of either sign at the largest gain. -/
theorem witness_OverflowedSampleKeepsItsInfinity :
    isInfinite (gainedSample refConfig.params 0x7F7FFFFF 0x44800000) = true
    ∧ isInfinite (gainedSample refConfig.params 0x7F7FFFFF 0xFF800000) = true := by decide
theorem witness_MinusZeroAndInfiniteSamples : Invariants (encodingAt refConfig 0) :=
  invariants_encodingAt refConfig 0
/-- Levels 62 and 63: `+∞` clamps to 32768.0, and with SCALE_DIVISOR 1024.0 the sample 30720.0 scales to 62.0, 31744.0 to 63.0. -/
theorem witness_ConstantInputAlternates :
    (∀ p ∈ [((0x46F00000 : Binary32), (62 : Nat)), (0x46F80000, 63), (0xC7000000, 0)],
      let s := encodingAt refConfig (BitVec.ofNat 6 p.2)
      s.phase = .encoding ∧ s.outLen.toNat < s.config.params.maxCapacity ∧ isNaN p.1 = false
        ∧ scaledSample s.config.params s.g p.1 = floatOfNat p.2 ∧ s.delta.toNat = p.2)
    ∧ positiveFinite (encodingAt refConfig 32).g = true ∧ (encodingAt refConfig 32).delta = 32
    ∧ (encodingAt refConfig 32).nbits = 0 := by decide
theorem witness_EarlierBitsReachNoLaterByte :
    (encodingAt cap1Config 32).phase = .encoding
    ∧ (encodingAt cap1Config 32).outLen.toNat < (encodingAt cap1Config 32).config.params.maxCapacity
    ∧ (encodingAt cap1Config 32).nbits = 0
    ∧ ((0x7FC00000 :: List.replicate 8 (0x47000000 : Binary32)).filter (fun x => !isNaN x)).length = 8 := by decide
theorem witness_CodedBytesHoldTheDecisions :
    gainAccepted (State.resetOf refConfig).config.params 0x00000000 = true := by decide

theorem witness_FinishIsAcceptedOnlyWhileEncoding :
    (State.resetOf refConfig).phase ≠ .encoding ∧ (oneByte refConfig).phase = .encoding := by decide
theorem witness_FinishPadsToTheClosedForm :
    ∀ s ∈ [encodingLength refConfig 4081, encodingLength refConfig 2, encodingLength cap0Config 0], s.phase = .encoding := by
  decide
theorem witness_FinishedLengthIsAligned :
    Invariants (oneByte refConfig) ∧ (oneByte refConfig).phase = .encoding := ⟨invariants_oneByte, rfl⟩
/-- A capacity of 0 and one above. -/
theorem witness_WholeConversionLength :
    gainAccepted (State.resetOf cap0Config).config.params 0x00000000 = true
    ∧ gainAccepted (State.resetOf cap1Config).config.params 0x00000000 = true
    ∧ 1 ≤ (State.resetOf cap1Config).config.params.maxCapacity := by decide

theorem witness_RdbyteBelowTheLengthReadsTheByte :
    Invariants (oneByte refConfig) ∧ (0 : BitVec 32).toNat < (oneByte refConfig).outLen.toNat :=
  ⟨invariants_oneByte, by decide⟩
theorem witness_RdbyteAtOrAboveTheLengthRaises :
    (oneByte refConfig).outLen.toNat ≤ (1 : BitVec 32).toNat := by decide
theorem witness_RdbyteOfAnUnwrittenByteFaults :
    (2 : BitVec 32).toNat < (encodingLength refConfig 3).outLen.toNat
    ∧ memRead (encodingLength refConfig 3).out (2 : BitVec 32).toNat = none := by decide
/-- An index in range, one out of range, and another read. -/
theorem witness_ReadsHaveNoSideEffects :
    isRead (.rdbyte 0) = true ∧ isRead .rdstat = true
    ∧ exec (.rdbyte 0) (oneByte refConfig) = .next (respond 0x0000000F (oneByte refConfig))
    ∧ exec (.rdbyte 1) (oneByte refConfig) = .next (respondAny (raise .range (oneByte refConfig))) :=
  ⟨rfl, rfl, rfl, rfl⟩

theorem witness_StepRunsTheDecodedCommand :
    let s := { oneByte refConfig with inputs := [.command (encode (.sample 0x00000000))] }
    s.wasReset = true ∧ s.inputs = .command (encode (.sample 0x00000000)) :: []
      ∧ (Instr.sample 0x00000000).wellFormed = true := by decide
theorem witness_FetchedWordRunsNext : 64 ≤ 64 := by decide
theorem witness_IdleBlockHoldsItsState :
    (oneByte refConfig).inputs = []
    ∧ { oneByte refConfig with inputs := [.takeResponse] }.inputs = .takeResponse :: []
    ∧ (oneByte refConfig).wasReset = true := by decide
theorem witness_ResetGivesTheResetValues :
    { oneByte refConfig with inputs := [.reset], errRange := true }.inputs = .reset :: [] := rfl
theorem witness_NothingRunsBeforeTheFirstReset :
    ∀ i ∈ [HostInput.command 0x3000000000000000, .takeResponse, .reset],
      let s := { oneByte refConfig with inputs := [i], wasReset := false }
      s.wasReset = false ∧ s.inputs = i :: [] := by decide
theorem witness_ResetEstablishesTheInvariants :
    { encodingLength refConfig 3 with inputs := [.reset], wasReset := false }.inputs = .reset :: [] := rfl
theorem witness_EveryStepKeepsTheInvariants :
    Invariants (oneByte refConfig) ∧ step (oneByte refConfig) = .next (oneByte refConfig) := ⟨invariants_oneByte, rfl⟩
theorem witness_EveryCommandCompletes : Invariants (oneByte refConfig) ∧ (oneByte refConfig).wasReset = true :=
  ⟨invariants_oneByte, rfl⟩
/-- A step of FINISH. -/
theorem witness_PhaseChangesOnlyAsListed :
    (nextOf (step ((oneByte refConfig).withFetchWord 64 0x3000000000000000))).map State.phase = some .done := by decide
theorem witness_FlagsAreStickyUntilReset :
    errFlag { oneByte refConfig with errRange := true } .range = true
    ∧ step { oneByte refConfig with errRange := true } = .next { oneByte refConfig with errRange := true } := ⟨rfl, rfl⟩
/-- A flag raised by a command, of either kind. -/
theorem witness_ErrorsArePreciseAndSingle :
    exec .finish (State.resetOf refConfig) = .next (raise .protocol (State.resetOf refConfig))
    ∧ errFlag (State.resetOf refConfig) .protocol = false
    ∧ errFlag (raise .protocol (State.resetOf refConfig)) .protocol = true
    ∧ exec (.rdbyte 0) (State.resetOf refConfig) = .next (respondAny (raise .range (State.resetOf refConfig)))
    ∧ errFlag (State.resetOf refConfig) .range = false
    ∧ errFlag (respondAny (raise .range (State.resetOf refConfig))) .range = true := ⟨rfl, rfl, rfl, rfl, rfl, rfl⟩
theorem witness_SetFlagsChangeNoCommand :
    exec .rdstat (oneByte refConfig) = .next (respond (statusWord (oneByte refConfig)) (oneByte refConfig)) := rfl
/-- An accepted START, and a command that stays in IDLE. -/
theorem witness_GainIsNotObservableInIdle :
    (State.resetOf refConfig).phase = .idle
    ∧ (nextOf (exec (.start 0x00000000) (State.resetOf refConfig))).isSome = true
    ∧ (nextOf (exec .rddbg (State.resetOf refConfig))).isSome = true := by decide
theorem witness_WrittenBytesAreFinal :
    Invariants (oneByte refConfig) ∧ (nextOf (exec .finish (oneByte refConfig))).isSome = true
    ∧ (nextOf (exec (.start 0x00000000) (oneByte refConfig))).isSome = true := ⟨invariants_oneByte, rfl, rfl⟩
theorem witness_OneResponsePerReadCommand :
    (nextOf (exec .rdlen (oneByte refConfig))).isSome = true ∧ (nextOf (exec .finish (oneByte refConfig))).isSome = true := by
  decide
theorem witness_ConfigurationNeverChanges : step (oneByte refConfig) = .next (oneByte refConfig) := rfl

end Sys2Proof.Tests
end

section
/-! PROOFS. The family 00_scope.md: what the binary32 primitives of R10 answer on each class of operands, that their rounding is
the correct one, that the order of the patterns is that of the exact values, and R6's conditions on a configuration. -/

namespace Sys2Proof

open Machine

/-! ### Signs and magnitudes -/

/-- A number with the sign put to it: the form of `signedUnitsOf` and of `orderKey`. -/
def withSign (sign : Bool) (x : Int) : Int := if sign then -x else x

@[simp] theorem withSign_true (x : Int) : withSign true x = -x := rfl

@[simp] theorem withSign_false (x : Int) : withSign false x = x := rfl

@[simp] theorem withSign_withSign (sign : Bool) (x : Int) : withSign sign (withSign sign x) = x := by
  cases sign <;> simp

@[simp] theorem natAbs_withSign (sign : Bool) (x : Int) : (withSign sign x).natAbs = x.natAbs := by
  cases sign <;> simp

theorem withSign_neg_iff (sign : Bool) {x : Int} (h : 0 < x) : withSign sign x < 0 ↔ sign = true := by
  cases sign
  · simp [h.le]
  · simp [h]

theorem withSign_mul (s t : Bool) (x y : Int) : withSign s x * withSign t y = withSign (s != t) (x * y) := by
  cases s <;> cases t <;> simp

/-- A number is its magnitude with the sign it has; zero may be given either. -/
theorem withSign_natAbs {sign : Bool} {x : Int} (h : x ≠ 0 → sign = decide (x < 0)) : withSign sign x.natAbs = x := by
  cases sign
  · simp only [Bool.false_eq, decide_eq_false_iff_not] at h
    simp only [withSign_false]
    omega
  · simp only [Bool.true_eq, decide_eq_true_eq] at h
    simp only [withSign_true]
    omega

/-- The sign of one number put to the other instead leaves their distance as it is. -/
theorem natAbs_withSign_sub (sign : Bool) (x y : Int) (den : Nat) :
    (withSign sign x - den * y).natAbs = (x - den * withSign sign y).natAbs := by
  have e : withSign sign x - den * y = withSign sign (x - den * withSign sign y) := by
    cases sign
    · rfl
    · simp only [withSign_true]
      ring
  rw [e, natAbs_withSign]

theorem signedUnitsOf_eq (f : Binary32) : signedUnitsOf f = withSign (f32Sign f) (unitsOf f) := rfl

theorem signedUnitsOf_eq_codeUnits (f : Binary32) :
    signedUnitsOf f = withSign (f32Sign f) (codeUnits (f.toNat % 2 ^ 31)) := by
  rw [signedUnitsOf_eq, unitsOf_eq_codeUnits]

theorem orderKey_eq (f : Binary32) : orderKey f = withSign (f32Sign f) (f.toNat % 2 ^ 31 : Nat) := by
  simp [orderKey, withSign, BitVec.extractLsb'_toNat]

/-! ### The classes of patterns exclude each other -/

theorem isInfinite_eq_false_of_isFinite {f : Binary32} (h : isFinite f = true) : isInfinite f = false := by
  rw [isFinite_iff] at h
  rw [← Bool.not_eq_true, isInfinite_iff]
  exact h.ne

theorem isNaN_eq_false_of_isInfinite {f : Binary32} (h : isInfinite f = true) : isNaN f = false := by
  rw [isInfinite_iff] at h
  rw [← Bool.not_eq_true, isNaN_iff]
  exact h.not_gt

theorem isZero_eq_false_of_isInfinite {f : Binary32} (h : isInfinite f = true) : isZero f = false := by
  rw [isInfinite_iff] at h
  rw [← Bool.not_eq_true, isZero_iff, h]
  decide

theorem isFinite_of_isZero {f : Binary32} (h : isZero f = true) : isFinite f = true := by
  rw [isZero_iff] at h
  rw [isFinite_iff, h]
  decide

theorem isNaN_quietNaN : isNaN quietNaN = true := by decide

theorem isInfinityOf_pack (sign : Bool) : IsInfinityOf sign (packBinary32 sign infinityMagnitude) := by
  obtain ⟨hmag, hsign⟩ := packBinary32_fields sign infinityMagnitude (by decide)
  exact ⟨(isInfinite_iff _).2 hmag, hsign⟩

theorem isZeroOf_pack (sign : Bool) : IsZeroOf sign (packBinary32 sign 0) := by
  obtain ⟨hmag, hsign⟩ := packBinary32_fields sign 0 (by decide)
  exact ⟨(isZero_iff _).2 hmag, hsign⟩

theorem codeUnits_pos {c : Nat} (h : 0 < c) : 0 < codeUnits c := codeUnits_lt h

theorem unitsOf_pos {f : Binary32} (h : isZero f = false) : 0 < unitsOf f := by
  rw [← Bool.not_eq_true, isZero_iff] at h
  rw [unitsOf_eq_codeUnits]
  exact codeUnits_pos (Nat.pos_of_ne_zero h)

/-! ### One rounding, with the sign put back -/

theorem f32Fraction_mod_two (f : Binary32) : f32Fraction f % 2 = f.toNat % 2 ^ 31 % 2 := by
  simp only [f32Fraction, BitVec.extractLsb'_toNat, Nat.shiftRight_zero]
  omega

/-- The nearest magnitude is nearest among the numbers of both signs: one below zero is farther from `num` than zero is. -/
theorem roundMagnitude_nearest_signed (num den c : Nat) (y : Int) (hy : y.natAbs = codeUnits c) (hd : 0 < den)
    (hf : roundMagnitude num den < infinityMagnitude) :
    ((num : Int) - den * codeUnits (roundMagnitude num den)).natAbs ≤ ((num : Int) - den * y).natAbs
    ∧ (((num : Int) - den * codeUnits (roundMagnitude num den)).natAbs = ((num : Int) - den * y).natAbs →
        y ≠ codeUnits (roundMagnitude num den) → roundMagnitude num den % 2 = 0) := by
  rcases Int.lt_or_le y 0 with hneg | hpos
  · obtain ⟨hzero, -⟩ := roundMagnitude_nearest num den 0 hd hf
    rw [show codeUnits 0 = 0 from rfl] at hzero
    have hbelow : (den : Int) * y < 0 := Int.mul_neg_of_pos_of_neg (by exact_mod_cast hd) hneg
    have hlt : ((num : Int) - den * codeUnits (roundMagnitude num den)).natAbs < ((num : Int) - den * y).natAbs := by omega
    exact ⟨hlt.le, fun he => absurd he hlt.ne⟩
  · obtain ⟨hle, heven⟩ := roundMagnitude_nearest num den c hd hf
    rw [← hy, Int.natAbs_of_nonneg hpos] at hle heven
    exact ⟨hle, fun he hne => heven he (by omega)⟩

theorem isNearestEven_pack (sign : Bool) (num den : Nat) (hd : 0 < den) (hf : roundMagnitude num den < infinityMagnitude) :
    IsNearestEven (withSign sign num) den (packBinary32 sign (roundMagnitude num den)) := by
  intro f _
  obtain ⟨hmag, hsign⟩ := packBinary32_fields sign (roundMagnitude num den) (hf.trans (by decide))
  have hy : (withSign sign (signedUnitsOf f)).natAbs = codeUnits (f.toNat % 2 ^ 31) := by
    simp [signedUnitsOf_eq_codeUnits]
  obtain ⟨hle, heven⟩ := roundMagnitude_nearest_signed num den _ _ hy hd hf
  rw [f32Fraction_mod_two, signedUnitsOf_eq_codeUnits (packBinary32 _ _), hmag, hsign]
  simp only [natAbs_withSign_sub, withSign_withSign]
  exact ⟨hle, fun he hne => heven he fun h => hne (by rw [← h, withSign_withSign])⟩

/-- The rounding that `fmul`, `fdiv` and `fadd` share is IEEE 754's. -/
theorem correctlyRounded_pack (sign : Bool) (num den : Nat) (hd : 0 < den) :
    CorrectlyRounded (withSign sign num) den (packBinary32 sign (roundMagnitude num den)) := by
  unfold CorrectlyRounded
  rw [natAbs_withSign, Int.natAbs_natCast]
  split
  · next hover =>
    have hpos : 0 < num := (Nat.mul_pos hd (by decide)).trans_le hover
    obtain ⟨hinf, hsign⟩ := isInfinityOf_pack sign
    rw [(roundMagnitude_overflow num den hd).2 hover]
    exact ⟨hinf, by rw [hsign, withSign_neg_iff sign (by exact_mod_cast hpos)]⟩
  · next hunder =>
    have hlt : roundMagnitude num den < infinityMagnitude :=
      lt_of_le_of_ne (roundMagnitude_le num den) (mt (roundMagnitude_overflow num den hd).1 hunder)
    obtain ⟨hmag, -⟩ := packBinary32_fields sign (roundMagnitude num den) (hlt.trans (by decide))
    exact ⟨(isFinite_iff _).2 (by rwa [hmag]), isNearestEven_pack sign num den hd hlt⟩

theorem f32Sign_pack_roundMagnitude (sign : Bool) (num den : Nat) :
    f32Sign (packBinary32 sign (roundMagnitude num den)) = sign :=
  (packBinary32_fields sign _ ((roundMagnitude_le num den).trans_lt (by decide))).2

/-! ### What the primitives answer, class by class -/

theorem fmul_of_isFinite {a b : Binary32} (ha : isFinite a = true) (hb : isFinite b = true) :
    fmul a b = packBinary32 (f32Sign a != f32Sign b) (roundMagnitude (unitsOf a * unitsOf b) (2 ^ 149)) := by
  simp [fmul, isNaN_eq_false_of_isFinite _ ha, isNaN_eq_false_of_isFinite _ hb, isInfinite_eq_false_of_isFinite ha,
    isInfinite_eq_false_of_isFinite hb]

theorem fmul_comm (a b : Binary32) : fmul a b = fmul b a := by
  unfold fmul
  rw [Bool.xor_comm, Bool.or_comm (isNaN a), Bool.or_comm (isInfinite a), Bool.or_comm (isZero a), Nat.mul_comm]

theorem fmul_of_isInfinite {a b : Binary32} (ha : isInfinite a = true) (hb : isNaN b = false) :
    fmul a b = if isZero b then quietNaN else packBinary32 (f32Sign a != f32Sign b) infinityMagnitude := by
  simp [fmul, isNaN_eq_false_of_isInfinite ha, hb, ha, isZero_eq_false_of_isInfinite ha]

theorem fmul_of_isNaN {a b : Binary32} (h : isNaN a = true ∨ isNaN b = true) : fmul a b = quietNaN := by
  rw [← Bool.or_eq_true] at h
  simp [fmul, h]

theorem fdiv_of_isFinite {a b : Binary32} (ha : isFinite a = true) (hb : isFinite b = true) (hz : isZero b = false) :
    fdiv a b = packBinary32 (f32Sign a != f32Sign b) (roundMagnitude (unitsOf a * 2 ^ 149) (unitsOf b)) := by
  simp [fdiv, isNaN_eq_false_of_isFinite _ ha, isNaN_eq_false_of_isFinite _ hb, isInfinite_eq_false_of_isFinite ha,
    isInfinite_eq_false_of_isFinite hb, hz]

theorem fdiv_of_isInfinite {a b : Binary32} (ha : isInfinite a = true) (hb : isNaN b = false) :
    fdiv a b = if isInfinite b then quietNaN else packBinary32 (f32Sign a != f32Sign b) infinityMagnitude := by
  simp [fdiv, isNaN_eq_false_of_isInfinite ha, hb, ha]

theorem fdiv_of_isFinite_of_isInfinite {a b : Binary32} (ha : isFinite a = true) (hb : isInfinite b = true) :
    fdiv a b = packBinary32 (f32Sign a != f32Sign b) 0 := by
  simp [fdiv, isNaN_eq_false_of_isFinite _ ha, isNaN_eq_false_of_isInfinite hb, isInfinite_eq_false_of_isFinite ha, hb]

theorem fdiv_of_isFinite_of_isZero {a b : Binary32} (ha : isFinite a = true) (hb : isZero b = true) :
    fdiv a b = if isZero a then quietNaN else packBinary32 (f32Sign a != f32Sign b) infinityMagnitude := by
  have hbf := isFinite_of_isZero hb
  simp [fdiv, isNaN_eq_false_of_isFinite _ ha, isNaN_eq_false_of_isFinite _ hbf, isInfinite_eq_false_of_isFinite ha,
    isInfinite_eq_false_of_isFinite hbf, hb]

theorem fdiv_of_isNaN {a b : Binary32} (h : isNaN a = true ∨ isNaN b = true) : fdiv a b = quietNaN := by
  rw [← Bool.or_eq_true] at h
  simp [fdiv, h]

/-- The sign of the sum of two finite values. -/
def sumSign (a b : Binary32) : Bool :=
  if signedUnitsOf a + signedUnitsOf b = 0 then f32Sign a && f32Sign b else decide (signedUnitsOf a + signedUnitsOf b < 0)

/-- An exact zero sum is no exception to the rounding: 0 rounds to the code 0. -/
theorem fadd_of_isFinite {a b : Binary32} (ha : isFinite a = true) (hb : isFinite b = true) :
    fadd a b = packBinary32 (sumSign a b) (roundMagnitude (signedUnitsOf a + signedUnitsOf b).natAbs 1) := by
  simp only [fadd, sumSign, isNaN_eq_false_of_isFinite _ ha, isNaN_eq_false_of_isFinite _ hb,
    isInfinite_eq_false_of_isFinite ha, isInfinite_eq_false_of_isFinite hb, Bool.or_self, Bool.false_eq_true, if_false]
  split
  · next hzero => rw [hzero]; rfl
  · rfl

theorem fadd_of_isInfinite {a b : Binary32} (ha : isInfinite a = true) (hb : isNaN b = false) :
    fadd a b = if isInfinite b && (f32Sign a != f32Sign b) then quietNaN else a := by
  simp [fadd, isNaN_eq_false_of_isInfinite ha, hb, ha]

theorem fadd_of_isFinite_of_isInfinite {a b : Binary32} (ha : isFinite a = true) (hb : isInfinite b = true) :
    fadd a b = b := by
  simp [fadd, isNaN_eq_false_of_isFinite _ ha, isNaN_eq_false_of_isInfinite hb, isInfinite_eq_false_of_isFinite ha, hb]

theorem fadd_of_isNaN {a b : Binary32} (h : isNaN a = true ∨ isNaN b = true) : fadd a b = quietNaN := by
  rw [← Bool.or_eq_true] at h
  simp [fadd, h]

/-- Settles O8: of finite operands by `correctlyRounded_pack`, of the others by what `fmul` answers on their classes. -/
theorem multiplicationIsCorrectlyRounded : Obligations.MultiplicationIsCorrectlyRounded := by
  intro a b
  refine ⟨fun ha hb => ?_, fun ha hb hz => ?_, fun hb ha hz => ?_, ?_⟩
  · rw [fmul_of_isFinite ha hb, signedUnitsOf_eq, signedUnitsOf_eq, withSign_mul, ← Nat.cast_mul]
    exact ⟨correctlyRounded_pack _ _ _ (by decide), f32Sign_pack_roundMagnitude _ _ _⟩
  · rw [fmul_of_isInfinite ha hb, if_neg (by simp [hz])]
    exact isInfinityOf_pack _
  · rw [fmul_comm, fmul_of_isInfinite hb ha, if_neg (by simp [hz]), bne_comm]
    exact isInfinityOf_pack _
  · rintro (⟨ha, hb⟩ | ⟨ha, hb⟩ | hnan)
    · rw [fmul_of_isInfinite ha (isNaN_eq_false_of_isFinite _ (isFinite_of_isZero hb)), if_pos hb, isNaN_quietNaN]
    · rw [fmul_comm, fmul_of_isInfinite hb (isNaN_eq_false_of_isFinite _ (isFinite_of_isZero ha)), if_pos ha, isNaN_quietNaN]
    · rw [fmul_of_isNaN hnan, isNaN_quietNaN]

/-- Settles O9: of finite operands by `correctlyRounded_pack`, of the others by what `fdiv` answers on their classes. -/
theorem divisionIsCorrectlyRounded : Obligations.DivisionIsCorrectlyRounded := by
  intro a b
  refine ⟨fun ha hb hz => ?_, fun ha hb => ?_, fun ha hb => ?_, fun ha hz hb => ?_, ?_⟩
  · have hquotient : signedUnitsOf a * 2 ^ 149 * (if f32Sign b then -1 else 1)
        = withSign (f32Sign a != f32Sign b) (unitsOf a * 2 ^ 149 : Nat) := by
      calc signedUnitsOf a * 2 ^ 149 * (if f32Sign b then -1 else 1)
        _ = withSign (f32Sign a) (unitsOf a) * withSign (f32Sign b) 1 * 2 ^ 149 := mul_right_comm _ _ _
        _ = withSign (f32Sign a != f32Sign b) (unitsOf a) * withSign false (2 ^ 149) := by rw [withSign_mul, mul_one]; rfl
        _ = withSign (f32Sign a != f32Sign b) (unitsOf a * 2 ^ 149 : Nat) := by rw [withSign_mul]; simp
    rw [fdiv_of_isFinite ha hb hz, hquotient]
    exact ⟨correctlyRounded_pack _ _ _ (unitsOf_pos hz), f32Sign_pack_roundMagnitude _ _ _⟩
  · rw [fdiv_of_isInfinite ha (isNaN_eq_false_of_isFinite _ hb), if_neg (by simp [isInfinite_eq_false_of_isFinite hb])]
    exact isInfinityOf_pack _
  · rw [fdiv_of_isFinite_of_isInfinite ha hb]
    exact isZeroOf_pack _
  · rw [fdiv_of_isFinite_of_isZero ha hb, if_neg (by simp [hz])]
    exact isInfinityOf_pack _
  · rintro (⟨ha, hb⟩ | ⟨ha, hb⟩ | hnan)
    · rw [fdiv_of_isInfinite ha (isNaN_eq_false_of_isInfinite hb), if_pos hb, isNaN_quietNaN]
    · rw [fdiv_of_isFinite_of_isZero (isFinite_of_isZero ha) hb, if_pos ha, isNaN_quietNaN]
    · rw [fdiv_of_isNaN hnan, isNaN_quietNaN]

/-- Settles O10: of finite operands by `correctlyRounded_pack`, of the others by what `fadd` answers on their classes. -/
theorem additionIsCorrectlyRounded : Obligations.AdditionIsCorrectlyRounded := by
  intro a b
  refine ⟨fun ha hb => ?_, ?_, fun hb ha => fadd_of_isFinite_of_isInfinite ha hb, ?_⟩
  · have hsum : withSign (sumSign a b) (signedUnitsOf a + signedUnitsOf b).natAbs = signedUnitsOf a + signedUnitsOf b :=
      withSign_natAbs fun hne => if_neg hne
    rw [fadd_of_isFinite ha hb]
    refine ⟨?_, f32Sign_pack_roundMagnitude _ _ _⟩
    have hround := correctlyRounded_pack (sumSign a b) (signedUnitsOf a + signedUnitsOf b).natAbs 1 (by decide)
    rwa [hsum] at hround
  · rintro ha (hb | rfl)
    · rw [fadd_of_isInfinite ha (isNaN_eq_false_of_isFinite _ hb), if_neg (by simp [isInfinite_eq_false_of_isFinite hb])]
    · rw [fadd_of_isInfinite ha (isNaN_eq_false_of_isInfinite ha), if_neg (by simp)]
  · rintro (⟨ha, hb, hsigns⟩ | hnan)
    · rw [fadd_of_isInfinite ha (isNaN_eq_false_of_isInfinite hb), if_pos (by simp [hb, hsigns]), isNaN_quietNaN]
    · rw [fadd_of_isNaN hnan, isNaN_quietNaN]

/-! ### The order -/

/-- The values of the codes rise from zero with the codes, so the signed ones are in the order of the signed codes. -/
theorem withSign_codeUnits_lt_iff (s t : Bool) (m n : Nat) :
    withSign s (codeUnits m) < withSign t (codeUnits n) ↔ withSign s m < withSign t n := by
  have hmono : StrictMono codeUnits := fun _ _ h => codeUnits_lt h
  have hlt := @StrictMono.lt_iff_lt _ _ _ _ _ hmono
  have hm := hlt (a := 0) (b := m)
  have hn := hlt (a := 0) (b := n)
  have hmn := hlt (a := m) (b := n)
  have hnm := hlt (a := n) (b := m)
  rw [show codeUnits 0 = 0 from rfl] at hm hn
  cases s <;> cases t <;> simp only [withSign_true, withSign_false] <;> omega

theorem orderKey_lt_iff (a b : Binary32) : orderKey a < orderKey b ↔ signedUnitsOf a < signedUnitsOf b := by
  rw [orderKey_eq, orderKey_eq, signedUnitsOf_eq_codeUnits, signedUnitsOf_eq_codeUnits, withSign_codeUnits_lt_iff]

theorem fgt_iff {a b : Binary32} (ha : isNaN a = false) (hb : isNaN b = false) :
    fgt a b = true ↔ orderKey b < orderKey a := by
  simp [fgt, ha, hb]

theorem fge_iff {a b : Binary32} (ha : isNaN a = false) (hb : isNaN b = false) :
    fge a b = true ↔ orderKey b ≤ orderKey a := by
  simp [fge, ha, hb]

theorem fgt_iff_of_isFinite {a b : Binary32} (ha : isFinite a = true) (hb : isFinite b = true) :
    fgt a b = true ↔ signedUnitsOf b < signedUnitsOf a := by
  rw [fgt_iff (isNaN_eq_false_of_isFinite _ ha) (isNaN_eq_false_of_isFinite _ hb), orderKey_lt_iff]

theorem fge_iff_of_isFinite {a b : Binary32} (ha : isFinite a = true) (hb : isFinite b = true) :
    fge a b = true ↔ signedUnitsOf b ≤ signedUnitsOf a := by
  rw [fge_iff (isNaN_eq_false_of_isFinite _ ha) (isNaN_eq_false_of_isFinite _ hb), ← not_lt, orderKey_lt_iff, not_lt]

/-- A finite pattern lies between the infinities. -/
theorem natAbs_orderKey_lt {a : Binary32} (ha : isFinite a = true) : (orderKey a).natAbs < infinityMagnitude := by
  rw [orderKey_eq, natAbs_withSign, Int.natAbs_natCast]
  exact (isFinite_iff a).1 ha

theorem comparisons_of_isNaN {a b : Binary32} (h : isNaN a = true ∨ isNaN b = true) :
    fge a b = false ∧ fgt a b = false ∧ flt a b = false := by
  rcases h with h | h <;> simp [fge, fgt, flt, h]

/-- Settles O11: on patterns that are no NaN the order is that of the keys, and the keys are in the order of the values. -/
theorem comparisonsFollowTheValues : Obligations.ComparisonsFollowTheValues := by
  refine ⟨fun a b ha hb => ⟨fge_iff_of_isFinite ha hb, fgt_iff_of_isFinite ha hb, fgt_iff_of_isFinite hb ha⟩,
    fun a ha => ?_, fun a b h => comparisons_of_isNaN h⟩
  have hnan := isNaN_eq_false_of_isFinite a ha
  have hkey := natAbs_orderKey_lt ha
  have hplus : orderKey 0x7F800000 = infinityMagnitude := by decide
  have hminus : orderKey 0xFF800000 = -(infinityMagnitude : Int) := by decide
  rw [flt, fgt_iff (by decide) hnan, fgt_iff hnan (by decide), hplus, hminus]
  omega

/-! ### Configurations -/

theorem isFinite_plusZero : isFinite plusZero = true := by decide

theorem signedUnitsOf_plusZero : signedUnitsOf plusZero = 0 := by decide

/-- A comparison with `+0.0` is one of the exact value with 0. -/
theorem isFinite_and_fgt_plusZero_iff (f : Binary32) :
    (isFinite f = true ∧ fgt f plusZero = true) ↔ (isFinite f = true ∧ 0 < signedUnitsOf f) :=
  and_congr_right fun h => by rw [fgt_iff_of_isFinite h isFinite_plusZero, signedUnitsOf_plusZero]

theorem isNaN_eq_false_of_fge {a b : Binary32} (h : fge a b = true) : isNaN a = false := by
  by_contra hnan
  rw [(comparisons_of_isNaN (.inl (by simpa using hnan))).1] at h
  cases h

theorem Params.inGainRange_iff (p : Params) (g : Binary32) :
    p.inGainRange g = true ↔ fge g p.gainDbMin = true ∧ fge p.gainDbMax g = true := by
  rw [Params.inGainRange, Bool.and_eq_true]

/-- The check on the parameters is R6 in exact values. -/
theorem Params.legal_iff_meetsConditions (p : Params) : p.legal = true ↔ MeetsConditions p p.dbToLinear := by
  rw [Params.legal_iff, Params.gainLegal_iff]
  simp only [isFinite_and_fgt_plusZero_iff, Params.inGainRange_iff]
  constructor
  · rintro ⟨hcap, hclamp, hdiv, ⟨hmin, hmax⟩, ⟨hminZero, hmaxZero⟩, hplus, hminus, hrange⟩
    rw [fge_iff_of_isFinite isFinite_plusZero hmin, signedUnitsOf_plusZero] at hminZero
    rw [fge_iff_of_isFinite hmax isFinite_plusZero, signedUnitsOf_plusZero] at hmaxZero
    exact ⟨hcap, hclamp, hdiv, ⟨hmin, hminZero⟩, ⟨hmax, hmaxZero⟩, fun g _ hlow hhigh => hrange g ⟨hlow, hhigh⟩, hplus, hminus⟩
  · rintro ⟨hcap, hclamp, hdiv, ⟨hmin, hminZero⟩, ⟨hmax, hmaxZero⟩, hrange, hplus, hminus⟩
    refine ⟨hcap, hclamp, hdiv, ⟨hmin, hmax⟩, ⟨?_, ?_⟩, hplus, hminus,
      fun g hg => hrange g (isNaN_eq_false_of_fge hg.1) hg.1 hg.2⟩
    · rwa [fge_iff_of_isFinite isFinite_plusZero hmin, signedUnitsOf_plusZero]
    · rwa [fge_iff_of_isFinite hmax isFinite_plusZero, signedUnitsOf_plusZero]

theorem Config.ofParams_isConfig_iff (p : Params) :
    (∃ c : Config, Config.ofParams p = some c ∧ c.params = p) ↔ p.legal = true := by
  constructor
  · rintro ⟨c, -, rfl⟩
    exact c.legal
  · intro h
    exact ⟨⟨p, h⟩, dif_pos h, rfl⟩

/-- Settles O7: a configuration carries the check, and the check is R6 in exact values. -/
theorem configurationsMeetTheConditions : Obligations.ConfigurationsMeetTheConditions :=
  ⟨fun c => c.params.legal_iff_meetsConditions.1 c.legal,
    fun p => (Config.ofParams_isConfig_iff p).trans p.legal_iff_meetsConditions⟩

/-- R6 asks nothing of the table but through the function it stands for. -/
theorem Machine.MeetsConditions.withTable {p : Params} {f : Binary32 → Binary32} (h : MeetsConditions p f) (table : GainTable) :
    MeetsConditions { p with gainTable := table } f :=
  ⟨h.capacity, h.clamp, h.divisor, h.gainMin, h.gainMax, h.gainInRange, h.gainAtZero⟩

/-- Settles O54: the parameters with a table of the function. -/
theorem everyGainFunctionIsConfigured : Obligations.EveryGainFunctionIsConfigured := by
  intro p f h
  obtain ⟨table, rfl⟩ := exists_gainTable f
  exact ⟨⟨{ p with gainTable := table }, (Params.legal_iff_meetsConditions _).2 (h.withTable table)⟩, rfl, rfl⟩

end Sys2Proof
end

section
/-! PROOFS. The family 10_state.md: a command begins a conversion, encodes a sample, finishes, or leaves every conversion register
as it is; the invariants of R34, the transitions of `PHASE` (R26) and the finality of written bytes (R28, R29) follow from these
four cases. -/

namespace Sys2Proof.Machine

/-! ### What a command answers, case by case -/

section
variable {s : State}

theorem exec_start_of_accepted {gainDb : Binary32} (h : gainAccepted s.config.params gainDb = true) :
    exec (.start gainDb) s = .next (beginConversion gainDb s) :=
  congrArg Host.Outcome.next (if_pos h)

theorem exec_start_of_rejected {gainDb : Binary32} (h : gainAccepted s.config.params gainDb = false) :
    exec (.start gainDb) s = .next (raise .domain s) :=
  congrArg Host.Outcome.next (if_neg (by rw [h]; decide))

theorem exec_sample_of_not_encoding (x : Binary32) (h : s.phase ≠ .encoding) :
    exec (.sample x) s = .next (raise .protocol s) :=
  congrArg Host.Outcome.next (if_pos h)

theorem exec_finish_of_not_encoding (h : s.phase ≠ .encoding) : exec .finish s = .next (raise .protocol s) :=
  congrArg Host.Outcome.next (if_pos h)

theorem exec_rdbyte_of_le {index : BitVec 32} (h : s.outLen ≤ index) :
    exec (.rdbyte index) s = .next (respondAny (raise .range s)) :=
  if_pos h

theorem exec_rdbyte_of_written {index : BitVec 32} {b : Byte} (h : ¬ s.outLen ≤ index)
    (hread : memRead s.out index.toNat = some b) : exec (.rdbyte index) s = .next (respond (b.setWidth 32) s) := by
  simp [exec, execRdbyte, h, hread]

theorem exec_rdbyte_of_unwritten {index : BitVec 32} (h : ¬ s.outLen ≤ index) (hread : memRead s.out index.toNat = none) :
    exec (.rdbyte index) s = .fault .unwrittenByte := by
  simp [exec, execRdbyte, h, hread]

theorem step_of_reset {rest : List HostInput} (h : s.inputs = .reset :: rest) :
    step s = .next (assertReset { s with inputs := rest }) := by
  unfold step
  rw [h]

end

/-! ### States that hold the same conversion -/

/-- `t` holds the configuration and the conversion registers of `s`: the two may differ in the flags, the channels and the model's
own fields. -/
structure SameConversion (s t : State) : Prop where
  config : t.config = s.config
  phase : t.phase = s.phase
  g : t.g = s.g
  delta : t.delta = s.delta
  acc : t.acc = s.acc
  nbits : t.nbits = s.nbits
  outLen : t.outLen = s.outLen
  out : t.out = s.out

section
variable {s t u : State}

theorem SameConversion.refl (s : State) : SameConversion s s := by
  constructor <;> rfl

theorem SameConversion.trans (h : SameConversion s t) (h' : SameConversion t u) : SameConversion s u :=
  ⟨h'.config.trans h.config, h'.phase.trans h.phase, h'.g.trans h.g, h'.delta.trans h.delta, h'.acc.trans h.acc,
    h'.nbits.trans h.nbits, h'.outLen.trans h.outLen, h'.out.trans h.out⟩

theorem sameConversion_raise (e : ErrFlag) (s : State) : SameConversion s (raise e s) := by
  constructor <;> simp

theorem sameConversion_respond (v : Response) (s : State) : SameConversion s (respond v s) := by
  constructor <;> rfl

theorem sameConversion_respondAny (s : State) : SameConversion s (respondAny s) := by
  constructor <;> rfl

theorem sameConversion_takeResponse (s : State) : SameConversion s (takeResponse s) := by
  constructor <;> rfl

theorem sameConversion_withInputs (s : State) (rest : List HostInput) : SameConversion s { s with inputs := rest } := by
  constructor <;> rfl

/-- RESET discards the conversion of any state for that of the reset state. -/
theorem sameConversion_assertReset (s : State) : SameConversion (State.resetOf s.config) (assertReset s) := by
  constructor <;> rfl

theorem SameConversion.isFull_eq (h : SameConversion s t) : isFull t = isFull s := by
  rw [isFull, isFull, h.outLen, h.config]

/-! ### What a command and a step do to the conversion -/

/-- The four things a command can do to the conversion: begin one, encode a sample, finish, or nothing. -/
theorem exec_conversion_cases {i : Instr} (h : exec i s = .next t) :
    (∃ gainDb, i = .start gainDb ∧ gainAccepted s.config.params gainDb = true ∧ t = beginConversion gainDb s)
    ∨ (∃ x, i = .sample x ∧ s.phase = .encoding ∧ isFull s = false ∧ t = encodeSample x s)
    ∨ (i = .finish ∧ s.phase = .encoding ∧ t = { alignLength s with phase := .done })
    ∨ SameConversion s t := by
  rcases exec_next_cases h with hstart | ⟨_, _, _, rfl⟩ | ⟨_, _, _, rfl⟩ | ⟨_, _, _, _, rfl⟩ | ⟨_, _, _, _, _, rfl⟩
    | ⟨x, hi, hphase, hfull, _, ht⟩ | ⟨_, _, rfl⟩ | hfinish | ⟨_, _, _, rfl⟩ | ⟨_, _, _, _, _, rfl⟩ | ⟨_, rfl⟩ | ⟨_, rfl⟩
    | ⟨_, rfl⟩ | ⟨_, _, rfl⟩
  · exact .inl hstart
  · exact .inr (.inr (.inr (sameConversion_raise _ _)))
  · exact .inr (.inr (.inr (sameConversion_raise _ _)))
  · exact .inr (.inr (.inr (.refl _)))
  · exact .inr (.inr (.inr (sameConversion_raise _ _)))
  · exact .inr (.inl ⟨x, hi, hphase, hfull, ht⟩)
  · exact .inr (.inr (.inr (sameConversion_raise _ _)))
  · exact .inr (.inr (.inl hfinish))
  · exact .inr (.inr (.inr ((sameConversion_raise _ _).trans (sameConversion_respondAny _))))
  · exact .inr (.inr (.inr (sameConversion_respond _ _)))
  · exact .inr (.inr (.inr (sameConversion_respond _ _)))
  · exact .inr (.inr (.inr (sameConversion_respond _ _)))
  · exact .inr (.inr (.inr (sameConversion_respond _ _)))
  · exact .inr (.inr (.inr (sameConversion_raise _ _)))

/-- A step asserts RESET, executes a command, or leaves the conversion as it is. -/
theorem step_conversion_cases (h : step s = .next t) :
    (∃ rest, s.inputs = .reset :: rest ∧ t = assertReset { s with inputs := rest })
    ∨ (∃ w rest, s.inputs = .command w :: rest ∧ exec (decode w) { s with inputs := rest } = .next t)
    ∨ SameConversion s t := by
  rcases step_next_cases h with ⟨_, rfl⟩ | ⟨rest, hin, ht⟩ | ⟨rest, _, _, rfl⟩ | ⟨w, rest, hin, _, hexec⟩
  · exact .inr (.inr (.refl _))
  · exact .inl ⟨rest, hin, ht⟩
  · exact .inr (.inr ((sameConversion_withInputs s rest).trans (sameConversion_takeResponse _)))
  · exact .inr (.inl ⟨w, rest, hin, hexec⟩)

/-! ### The output buffer grows -/

theorem encodeBit_outLen_toNat (bit : Bool) (h : s.outLen.toNat < s.config.params.maxCapacity) :
    (encodeBit bit s).outLen.toNat = if s.nbits = 7 then s.outLen.toNat + 1 else s.outLen.toNat := by
  split
  · next h7 =>
    rw [encodeBit_eighth bit s h7]
    exact append_outLen_toNat 0 s h
  · next h7 => rw [encodeBit_counted bit s h7]

/-- 42_finish.md R164: 15 rounds reach the residue or the capacity. -/
theorem alignLength_outLen_toNat (s : State) :
    (alignLength s).outLen.toNat
      = if s.config.params.maxCapacity ≤ s.outLen.toNat then s.outLen.toNat
        else min s.config.params.maxCapacity (s.outLen.toNat + (17 - s.outLen.toNat % 16) % 16) := by
  have hrounds : min 15 ((17 - s.outLen.toNat % 16) % 16) = (17 - s.outLen.toNat % 16) % 16 := by omega
  have hpad := (padFiller_spec 15 s).1
  rwa [hrounds] at hpad

/-- 42_finish.md R162: the filler bytes, and every other byte left alone. -/
theorem memRead_alignLength (s : State) (a : Nat) :
    memRead (alignLength s).out a
      = if s.outLen.toNat ≤ a ∧ a < (alignLength s).outLen.toNat then some fillByte else memRead s.out a :=
  (padFiller_spec 15 s).2.1 a

theorem alignLength_wf (h : Memory.wf s.out = true) : Memory.wf (alignLength s).out = true :=
  (padFiller_spec 15 s).2.2 h

/-- From `s` to `t` bytes are appended at the old length, up to the new one and within the capacity; no other byte changes. -/
structure GrowsOutput (s t : State) : Prop where
  config : t.config = s.config
  length_le : s.outLen.toNat ≤ t.outLen.toNat
  within_capacity : s.outLen.toNat ≤ s.config.params.maxCapacity → t.outLen.toNat ≤ s.config.params.maxCapacity
  written : ∀ a, s.outLen.toNat ≤ a → a < t.outLen.toNat → (memRead t.out a).isSome = true
  unchanged : ∀ a, a < s.outLen.toNat ∨ t.outLen.toNat ≤ a → memRead t.out a = memRead s.out a
  canonical : Memory.wf s.out = true → Memory.wf t.out = true

/-- A state with the same output has grown by nothing. -/
theorem growsOutput_of_eq (hconfig : t.config = s.config) (hlen : t.outLen = s.outLen) (hout : t.out = s.out) :
    GrowsOutput s t where
  config := hconfig
  length_le := by rw [hlen]
  within_capacity := by rw [hlen]; exact id
  written a hlow hhigh := by rw [hlen] at hhigh; omega
  unchanged a _ := by rw [hout]
  canonical := by rw [hout]; exact id

theorem growsOutput_append (v : Byte) (h : s.outLen.toNat < s.config.params.maxCapacity) : GrowsOutput s (append v s) where
  config := rfl
  length_le := by rw [append_outLen_toNat v s h]; omega
  within_capacity _ := by rw [append_outLen_toNat v s h]; omega
  written a hlow hhigh := by
    rw [append_outLen_toNat v s h] at hhigh
    rw [memRead_append, if_pos (by omega)]
    rfl
  unchanged a ha := by
    rw [append_outLen_toNat v s h] at ha
    rw [memRead_append, if_neg (by omega)]
  canonical := memWrite_wf _ _ _

/-- What a state shows of its growth is its configuration and its output. -/
theorem GrowsOutput.congr_right (h : GrowsOutput s t) (h' : u.config = t.config) (hlen : u.outLen = t.outLen)
    (hout : u.out = t.out) : GrowsOutput s u := by
  obtain ⟨hconfig, hle, hcap, hwritten, hsame, hwf⟩ := h
  constructor <;> simp only [h', hlen, hout] <;> assumption

theorem growsOutput_encodeBit (bit : Bool) (h : s.outLen.toNat < s.config.params.maxCapacity) :
    GrowsOutput s (encodeBit bit s) := by
  by_cases h7 : s.nbits = 7
  · rw [encodeBit_eighth bit s h7]
    exact (growsOutput_append (packBit bit s.acc) h).congr_right rfl rfl rfl
  · rw [encodeBit_counted bit s h7]
    exact growsOutput_of_eq rfl rfl rfl

theorem growsOutput_alignLength (s : State) : GrowsOutput s (alignLength s) where
  config := alignLength_config s
  length_le := by rw [alignLength_outLen_toNat]; split <;> omega
  within_capacity h := by rw [alignLength_outLen_toNat]; split <;> omega
  written a hlow hhigh := by
    rw [memRead_alignLength, if_pos ⟨hlow, hhigh⟩]
    rfl
  unchanged a ha := by
    rw [memRead_alignLength, if_neg (by omega)]
  canonical := alignLength_wf

theorem growsOutput_finish (s : State) : GrowsOutput s { alignLength s with phase := .done } :=
  (growsOutput_alignLength s).congr_right rfl rfl rfl

theorem SameConversion.growsOutput (h : SameConversion s t) : GrowsOutput s t :=
  growsOutput_of_eq h.config h.outLen h.out

/-- Every command but an accepted START only appends. -/
theorem exec_growsOutput {i : Instr} (hlen : s.outLen.toNat ≤ s.config.params.maxCapacity) (h : exec i s = .next t) :
    (∃ gainDb, i = .start gainDb ∧ gainAccepted s.config.params gainDb = true ∧ t = beginConversion gainDb s)
    ∨ GrowsOutput s t := by
  rcases exec_conversion_cases h with hstart | ⟨x, -, -, hfull, rfl⟩ | ⟨-, -, rfl⟩ | hsame
  · exact .inl hstart
  · have hlt := lt_of_le_of_ne hlen ((isFull_eq_false_iff s).1 hfull)
    exact .inr (growsOutput_encodeBit _ hlt)
  · exact .inr (growsOutput_finish s)
  · exact .inr hsame.growsOutput

end

/-- Settles O51, since every other command only appends. -/
theorem writtenBytesAreFinal : Obligations.WrittenBytesAreFinal := by
  intro i s t hinv h
  rcases exec_growsOutput hinv.length_bound h with ⟨gainDb, hi, hacc, rfl⟩ | hgrows
  · exact .inl ⟨gainDb, hi, hacc, rfl, fun _ => rfl⟩
  · refine .inr ⟨hgrows.length_le, ?_, hgrows.unchanged⟩
    rw [hgrows.config]
    exact hgrows.within_capacity hinv.length_bound

/-! ### The invariants -/

section
variable {s t : State}

/-- With nothing written and no bit counted, only the phase and `G` are left to look at. -/
theorem invariants_of_empty (hlen : s.outLen = 0) (hout : s.out = []) (hnbits : s.nbits = 0) (hphase : s.phase ≠ .done)
    (hgain : s.phase ≠ .idle → positiveFinite s.g = true) : Invariants s where
  delta_range := Nat.le_of_lt_succ s.delta.isLt
  nbits_range := Nat.le_of_lt_succ s.nbits.isLt
  length_bound := by simp [hlen]
  written_iff i := by simp [hlen, hout]
  full_no_partial _ _ := hnbits
  done_aligned h := absurd h hphase
  gain_positive := hgain
  out_canonical := by rw [hout]; rfl

/-- Growth keeps (I-c), (I-d) and the canonical form; what is left to show are (I-e), (I-f) and R25. -/
theorem GrowsOutput.invariants (hgrows : GrowsOutput s t) (hinv : Invariants s)
    (hfull : isFull t = true → t.phase = .encoding → t.nbits = 0)
    (hdone : t.phase = .done → t.outLen.toNat = t.config.params.maxCapacity ∨ t.outLen.toNat % 16 = 1)
    (hgain : t.phase ≠ .idle → positiveFinite t.g = true) : Invariants t where
  delta_range := Nat.le_of_lt_succ t.delta.isLt
  nbits_range := Nat.le_of_lt_succ t.nbits.isLt
  length_bound := by rw [hgrows.config]; exact hgrows.within_capacity hinv.length_bound
  written_iff i := by
    have hle := hgrows.length_le
    by_cases hmid : s.outLen.toNat ≤ i ∧ i < t.outLen.toNat
    · exact iff_of_true (hgrows.written i hmid.1 hmid.2) hmid.2
    · rw [hgrows.unchanged i (by omega), hinv.written_iff]
      omega
  full_no_partial := hfull
  done_aligned := hdone
  gain_positive := hgain
  out_canonical := hgrows.canonical hinv.out_canonical

/-- The invariants speak of the conversion alone. -/
theorem SameConversion.invariants (h : SameConversion s t) (hinv : Invariants s) : Invariants t := by
  refine h.growsOutput.invariants hinv ?_ ?_ ?_
  · rw [h.isFull_eq, h.phase, h.nbits]
    exact hinv.full_no_partial
  · rw [h.phase, h.outLen, h.config]
    exact hinv.done_aligned
  · rw [h.phase, h.g]
    exact hinv.gain_positive

theorem invariants_resetOf (c : Config) : Invariants (State.resetOf c) :=
  invariants_of_empty rfl rfl rfl nofun fun h => absurd rfl h

theorem invariants_assertReset (s : State) : Invariants (assertReset s) :=
  (sameConversion_assertReset s).invariants (invariants_resetOf s.config)

theorem invariants_beginConversion {gainDb : Binary32} (hacc : gainAccepted s.config.params gainDb = true) :
    Invariants (beginConversion gainDb s) := by
  obtain ⟨hfinite, hpositive⟩ := s.config.dbToLinear_of_accepted gainDb hacc
  refine invariants_of_empty rfl rfl rfl nofun fun _ => ?_
  rw [beginConversion_g, positiveFinite, hfinite, hpositive]
  rfl

/-- (I-e): the bit that fills the buffer is the eighth of its group. -/
theorem encodeBit_nbits_of_isFull (bit : Bool) (hlt : s.outLen.toNat < s.config.params.maxCapacity)
    (hfull : isFull (encodeBit bit s) = true) : (encodeBit bit s).nbits = 0 := by
  rw [isFull_iff, encodeBit_outLen_toNat bit hlt, encodeBit_config] at hfull
  have h7 : s.nbits = 7 := by
    by_contra h7
    rw [if_neg h7] at hfull
    omega
  rw [encodeBit_eighth bit s h7]

theorem invariants_encodeBit (bit : Bool) (hinv : Invariants s) (hphase : s.phase = .encoding) (hfull : isFull s = false) :
    Invariants (encodeBit bit s) := by
  have hlt := lt_of_le_of_ne hinv.length_bound ((isFull_eq_false_iff s).1 hfull)
  refine (growsOutput_encodeBit bit hlt).invariants hinv (fun h _ => encodeBit_nbits_of_isFull bit hlt h) ?_ ?_
  · rw [encodeBit_phase, hphase]
    exact nofun
  · rw [encodeBit_phase, encodeBit_g]
    exact hinv.gain_positive

/-- (I-f), 42_finish.md R165. -/
theorem alignLength_aligned (h : s.outLen.toNat ≤ s.config.params.maxCapacity) :
    (alignLength s).outLen.toNat = s.config.params.maxCapacity ∨ (alignLength s).outLen.toNat % 16 = 1 := by
  rw [alignLength_outLen_toNat]
  split <;> omega

theorem invariants_finish (hinv : Invariants s) (hphase : s.phase = .encoding) :
    Invariants { alignLength s with phase := .done } := by
  refine (growsOutput_finish s).invariants hinv nofun (fun _ => ?_) (fun _ => ?_)
  · rw [alignLength_config]
    exact alignLength_aligned hinv.length_bound
  · rw [alignLength_g]
    exact hinv.gain_positive (by rw [hphase]; exact nofun)

/-- 10_state.md R34: "These invariants hold after every command whose precondition holds". -/
theorem exec_keeps_invariants {i : Instr} (hinv : Invariants s) (h : exec i s = .next t) : Invariants t := by
  rcases exec_conversion_cases h with ⟨gainDb, -, hacc, rfl⟩ | ⟨x, -, hphase, hfull, rfl⟩ | ⟨-, hphase, rfl⟩ | hsame
  · exact invariants_beginConversion hacc
  · exact invariants_encodeBit _ hinv hphase hfull
  · exact invariants_finish hinv hphase
  · exact hsame.invariants hinv

end

/-- Settles O44, by the three things a step can do to the conversion and `exec_keeps_invariants`. -/
theorem everyStepKeepsTheInvariants : Obligations.EveryStepKeepsTheInvariants := by
  intro s t hinv h
  rcases step_conversion_cases h with ⟨rest, -, rfl⟩ | ⟨w, rest, -, hexec⟩ | hsame
  · exact invariants_assertReset _
  · exact exec_keeps_invariants ((sameConversion_withInputs s rest).invariants hinv) hexec
  · exact hsame.invariants hinv

/-- Settles O43: RESET gives any state the conversion registers of the reset state, and they meet the invariants. -/
theorem resetEstablishesTheInvariants : Obligations.ResetEstablishesTheInvariants :=
  ⟨invariants_resetOf _, fun _ _ h => ⟨_, step_of_reset h, invariants_assertReset _⟩⟩

/-! ### What no command writes -/

theorem exec_config {i : Instr} {s t : State} (h : exec i s = .next t) : t.config = s.config := by
  rcases exec_conversion_cases h with ⟨gainDb, -, -, rfl⟩ | ⟨x, -, -, -, rfl⟩ | ⟨-, -, rfl⟩ | hsame
  · rfl
  · exact encodeBit_config s _
  · exact alignLength_config s
  · exact hsame.config

/-- Settles O53: RESET takes the configuration over, and no command writes it. -/
theorem configurationNeverChanges : Obligations.ConfigurationNeverChanges := by
  intro s t h
  rcases step_conversion_cases h with ⟨rest, -, rfl⟩ | ⟨w, rest, -, hexec⟩ | hsame
  · rfl
  · exact (exec_config hexec :)
  · exact hsame.config

/-- Settles O46, by the same cases of a step and of a command. -/
theorem phaseChangesOnlyAsListed : Obligations.PhaseChangesOnlyAsListed := by
  intro s t h
  rcases step_conversion_cases h with ⟨rest, hin, rfl⟩ | ⟨w, rest, hin, hexec⟩ | hsame
  · exact .inl ⟨rest, hin, rfl⟩
  · rcases exec_conversion_cases hexec with ⟨gainDb, hi, hacc, rfl⟩ | ⟨x, -, -, -, rfl⟩ | ⟨hi, hphase, rfl⟩ | hsame
    · exact .inr (.inl ⟨w, rest, gainDb, hin, hi, hacc, rfl⟩)
    · exact .inr (.inr (.inr (encodeBit_phase _ _)))
    · exact .inr (.inr (.inl ⟨w, rest, hin, hi, hphase, rfl⟩))
    · exact .inr (.inr (.inr hsame.phase))
  · exact .inr (.inr (.inr hsame.phase))

/-! ### What the earlier registers reach -/

/-- Settles O15: an accepted START writes all the conversion registers, so an accepted START before it is forgotten too. -/
theorem acceptedStartForgetsTheEarlierConversion : Obligations.AcceptedStartForgetsTheEarlierConversion := by
  intro gainDb first s hacc hfirst
  have hexec := exec_start_of_accepted hacc
  refine ⟨fun ph gg d a n l o => ?_, ?_, _, hexec, rfl⟩
  · rw [hexec]
    exact exec_start_of_accepted hacc
  · have hsecond : exec (.start gainDb) (beginConversion first s) = .next (beginConversion gainDb s) :=
      exec_start_of_accepted hacc
    simp only [runCommands, exec_start_of_accepted hfirst, hsecond, hexec]

/-! ### `G` in IDLE -/

/-- No command that stays in IDLE reads or writes `G`. -/
theorem exec_withGain_of_idle {i : Instr} {s t : State} (g : Binary32) (hidle : s.phase = .idle) (h : exec i s = .next t)
    (hstay : t.phase = .idle) : exec i { s with g := g } = .next { t with g := g } := by
  have hnot : s.phase ≠ .encoding := by rw [hidle]; exact nofun
  cases i with
  | start gainDb =>
    cases hacc : gainAccepted s.config.params gainDb
    · rw [exec_start_of_rejected hacc] at h
      cases h
      exact exec_start_of_rejected hacc
    · rw [exec_start_of_accepted hacc] at h
      cases h
      cases hstay
  | sample x =>
    rw [exec_sample_of_not_encoding x hnot] at h
    cases h
    exact exec_sample_of_not_encoding x hnot
  | finish =>
    rw [exec_finish_of_not_encoding hnot] at h
    cases h
    exact exec_finish_of_not_encoding hnot
  | rdbyte index =>
    by_cases hrange : s.outLen ≤ index
    · rw [exec_rdbyte_of_le hrange] at h
      cases h
      exact exec_rdbyte_of_le hrange
    · cases hread : memRead s.out index.toNat with
      | none =>
        rw [exec_rdbyte_of_unwritten hrange hread] at h
        cases h
      | some b =>
        rw [exec_rdbyte_of_written hrange hread] at h
        cases h
        exact exec_rdbyte_of_written hrange hread
  | rdlen | rdstat | rddbg | illegal _ =>
    cases h
    rfl

/-- Settles O50: in IDLE a command begins a conversion, whose `G` is START's, or keeps the phase and `G`. -/
theorem gainIsNotObservableInIdle : Obligations.GainIsNotObservableInIdle := by
  intro i s t g hidle h
  have hnot : s.phase ≠ .encoding := by rw [hidle]; exact nofun
  rcases exec_conversion_cases h with ⟨gainDb, rfl, hacc, rfl⟩ | ⟨x, -, hphase, -, -⟩ | ⟨-, hphase, -⟩ | hsame
  · exact .inl ⟨rfl, exec_start_of_accepted hacc⟩
  · exact absurd hphase hnot
  · exact absurd hphase hnot
  · have hstay := hsame.phase.trans hidle
    exact .inr ⟨hstay, hsame.g, exec_withGain_of_idle g hidle h hstay⟩

end Sys2Proof.Machine
end

section
/-! PROOFS. The family 20_memory.md: a read answers and changes nothing else (R58), and the next command word is decoded and
executed (R57, R59), where the decoder undoes the encoder on the well-formed instructions (30_encoding.md R74, R78). -/

namespace Sys2Proof

/-! ### The decoder undoes the encoder -/

theorem wellFormed_illegal_iff (w : CommandWord) : (Instr.illegal w).wellFormed = true ↔ illegalReason w ≠ none := by
  by_cases h : illegalReason w = none <;> simp [Instr.wellFormed, Instr.illFormed, h]

theorem illegalReason_ne_none_iff (w : CommandWord) :
    illegalReason w ≠ none ↔ ((opField w).toNat = 0 ∨ 8 ≤ (opField w).toNat) ∨ rsvField w ≠ 0
      ∨ ((opField w).toNat ∈ [3, 5, 6, 7] ∧ opndField w ≠ 0) := by
  unfold illegalReason
  split_ifs with hop hrsv hopnd
  · exact iff_of_true nofun (.inl hop)
  · exact iff_of_true nofun (.inr (.inl hrsv))
  · exact iff_of_true nofun (.inr (.inr hopnd))
  · exact iff_of_false (· rfl) (not_or_intro hop (not_or_intro hrsv hopnd))

theorem decode_of_rsvField {w : CommandWord} (h : rsvField w ≠ 0) : decode w = .illegal w :=
  if_pos h

/-- The opcodes 0x0 and 0x8 to 0xF are none of the seven commands'. -/
theorem decode_of_reservedOpcode {w : CommandWord} (h : (opField w).toNat = 0 ∨ 8 ≤ (opField w).toNat) :
    decode w = .illegal w := by
  have hne : ∀ op ∈ [opStart, opSample, opFinish, opRdbyte, opRdlen, opRdstat, opRddbg], opField w ≠ op := by
    rintro op hop rfl
    revert h hop
    generalize opField w = op
    revert op
    decide
  simp only [List.forall_mem_cons] at hne
  obtain ⟨h1, h2, h3, h4, h5, h6, h7, -⟩ := hne
  simp [decode, h1, h2, h3, h4, h5, h6, h7]

theorem decode_of_operandNotZero {w : CommandWord} (hop : (opField w).toNat ∈ [3, 5, 6, 7]) (hopnd : opndField w ≠ 0) :
    decode w = .illegal w := by
  have heq : opField w = opFinish ∨ opField w = opRdlen ∨ opField w = opRdstat ∨ opField w = opRddbg := by
    revert hop
    generalize opField w = op
    revert op
    decide
  rcases heq with heq | heq | heq | heq <;>
    simp_all [decode, opStart, opSample, opFinish, opRdbyte, opRdlen, opRdstat, opRddbg]

theorem decode_of_illegalReason {w : CommandWord} (h : illegalReason w ≠ none) : decode w = .illegal w := by
  rcases (illegalReason_ne_none_iff w).1 h with hop | hrsv | ⟨hop, hopnd⟩
  · exact decode_of_reservedOpcode hop
  · exact decode_of_rsvField hrsv
  · exact decode_of_operandNotZero hop hopnd

theorem decode_encode {i : Instr} (h : i.wellFormed = true) : decode (encode i) = i := by
  cases i with
  | illegal w => exact decode_of_illegalReason ((wellFormed_illegal_iff w).1 h)
  | start _ | sample _ | finish | rdbyte _ | rdlen | rdstat | rddbg =>
    simp [encode, decode, opStart, opSample, opFinish, opRdbyte, opRdlen, opRdstat, opRddbg]

end Sys2Proof

namespace Sys2Proof.Machine

/-! ### What a read and a step with a command word answer -/

section
variable {s t : State}

/-- A read that completes raises ERR_RANGE with a free response, or only responds; in the second case its response does not
depend on the response channel, so the state after it answers the same. -/
theorem exec_read_cases {i : Instr} (hread : isRead i = true) (h : exec i s = .next t) :
    (∃ index, i = .rdbyte index ∧ s.outLen ≤ index ∧ t = respondAny (raise .range s))
    ∨ ∃ v, t = respond v s ∧ exec i t = .next (respond v t) := by
  cases i with
  | start _ | sample _ | finish | illegal _ => cases hread
  | rdbyte index =>
    by_cases hle : s.outLen ≤ index
    · rw [exec_rdbyte_of_le hle] at h
      cases h
      exact .inl ⟨index, rfl, hle, rfl⟩
    · cases hbyte : memRead s.out index.toNat with
      | none =>
        rw [exec_rdbyte_of_unwritten hle hbyte] at h
        cases h
      | some b =>
        rw [exec_rdbyte_of_written hle hbyte] at h
        cases h
        exact .inr ⟨_, rfl, exec_rdbyte_of_written hle hbyte⟩
  | rdlen | rdstat | rddbg =>
    cases h
    exact .inr ⟨_, rfl, rfl⟩

theorem step_of_command {w : CommandWord} {rest : List HostInput} (hreset : s.wasReset = true)
    (h : s.inputs = .command w :: rest) : step s = exec (decode w) { s with inputs := rest } := by
  unfold step
  rw [h]
  exact if_pos hreset

end

/-! ### The statements -/

/-- Settles O37, by what a completed read can do: a free response comes with ERR_RANGE, and any other is given again. -/
theorem readsHaveNoSideEffects : Obligations.ReadsHaveNoSideEffects := by
  intro i s t hread h
  rcases exec_read_cases hread h with ⟨index, rfl, hle, rfl⟩ | ⟨v, rfl, hagain⟩
  · exact ⟨Config.freeResponse s.draws, rfl, fun _ => rfl, .inl ⟨index, rfl, BitVec.le_def.1 hle, rfl⟩⟩
  · exact ⟨v, rfl, fun _ => rfl, .inr ⟨rfl, rfl, _, hagain, rfl⟩⟩

/-- Settles O33: below the length RDBYTE looks the byte up, and an UNWRITTEN one has no value. -/
theorem rdbyteOfAnUnwrittenByteFaults : Obligations.RdbyteOfAnUnwrittenByteFaults :=
  fun _ _ hlt hunwritten => exec_rdbyte_of_unwritten (BitVec.not_le.2 (BitVec.lt_def.2 hlt)) hunwritten

/-- Settles O38: the step decodes the word, and a well-formed instruction is decoded from its encoding. -/
theorem stepRunsTheDecodedCommand : Obligations.StepRunsTheDecodedCommand := by
  intro s rest hreset
  refine ⟨fun w hin => step_of_command hreset hin, fun i hwf hin => ?_⟩
  rw [step_of_command hreset hin, decode_encode hwf]

end Sys2Proof.Machine
end

section
/-! PROOFS. The family 30_encoding.md: every word is a legal command's encoding or is ILLEGAL (R70 to R74), a command completes and
gives one response exactly where it is a read (R74, R75), and what the assembly syntax stands for (R78, R79). -/

namespace Sys2Proof

open Machine

/-! ### Each word is the encoding of what it decodes to -/

/-- R73's cases with the fields read as numbers. -/
theorem illegalReason_ne_none_iff_toNat (w : CommandWord) :
    illegalReason w ≠ none ↔ (w.toNat / 2 ^ 60 = 0 ∨ 8 ≤ w.toNat / 2 ^ 60) ∨ w.toNat / 2 ^ 32 % 2 ^ 28 ≠ 0
      ∨ ((w.toNat / 2 ^ 60 = 3 ∨ w.toNat / 2 ^ 60 = 5 ∨ w.toNat / 2 ^ 60 = 6 ∨ w.toNat / 2 ^ 60 = 7)
          ∧ w.toNat % 2 ^ 32 ≠ 0) := by
  have hrsv : rsvField w ≠ 0 ↔ (rsvField w).toNat ≠ 0 := not_congr BitVec.toNat_inj.symm
  have hopnd : opndField w ≠ 0 ↔ (opndField w).toNat ≠ 0 := not_congr BitVec.toNat_inj.symm
  rw [illegalReason_ne_none_iff, hrsv, hopnd, opField_toNat, rsvField_toNat, opndField_toNat]
  simp only [List.mem_cons, List.not_mem_nil, or_false]

/-- A word outside R73's cases has one of R72's seven opcodes, with its operand or with operand 0. -/
theorem exists_encode_eq_of_legal {w : CommandWord} (h : illegalReason w = none) :
    ∃ i : Instr, i.wellFormed = true ∧ (∀ v, i ≠ .illegal v) ∧ encode i = w := by
  have hcases := mt (illegalReason_ne_none_iff w).2 (not_not_intro h)
  simp only [not_or, not_and, not_not] at hcases
  obtain ⟨⟨hne, hlt⟩, hrsv, hopnd⟩ := hcases
  have hop : opField w = opStart ∨ opField w = opSample ∨ opField w = opRdbyte ∨ opField w = opFinish
      ∨ opField w = opRdlen ∨ opField w = opRdstat ∨ opField w = opRddbg := by
    revert hne hlt
    clear hopnd
    generalize opField w = op
    revert op
    decide
  have hw := commandWord_fields w hrsv
  rcases hop with hop | hop | hop | hop | hop | hop | hop <;> rw [hop] at hw hopnd
  · exact ⟨.start (opndField w), rfl, nofun, hw⟩
  · exact ⟨.sample (opndField w), rfl, nofun, hw⟩
  · exact ⟨.rdbyte (opndField w), rfl, nofun, hw⟩
  all_goals rw [hopnd (by decide)] at hw
  · exact ⟨.finish, rfl, nofun, hw⟩
  · exact ⟨.rdlen, rfl, nofun, hw⟩
  · exact ⟨.rdstat, rfl, nofun, hw⟩
  · exact ⟨.rddbg, rfl, nofun, hw⟩

theorem decode_ne_illegal_of_legal {w : CommandWord} (h : illegalReason w = none) (v : CommandWord) :
    decode w ≠ .illegal v := by
  obtain ⟨i, hwf, hcommand, rfl⟩ := exists_encode_eq_of_legal h
  rw [decode_encode hwf]
  exact hcommand v

theorem exists_wellFormed_encode_eq (w : CommandWord) : ∃ i : Instr, i.wellFormed = true ∧ encode i = w := by
  by_cases h : illegalReason w = none
  · obtain ⟨i, hwf, -, he⟩ := exists_encode_eq_of_legal h
    exact ⟨i, hwf, he⟩
  · exact ⟨.illegal w, (wellFormed_illegal_iff w).2 h, rfl⟩

/-- Settles O1, by `decode_encode`. -/
theorem encodedInstructionsDecodeBack : Obligations.EncodedInstructionsDecodeBack :=
  fun _ => decode_encode

/-- Settles O2: each word is an encoding, and the decoder undoes the encoder. -/
theorem decodedWordsEncodeBack : Obligations.DecodedWordsEncodeBack := by
  intro w
  obtain ⟨i, hwf, rfl⟩ := exists_wellFormed_encode_eq w
  rw [decode_encode hwf]
  exact ⟨hwf, rfl⟩

/-- Settles O3: R73's cases on the fields are those on the numbers, and a word outside them is a command's encoding. -/
theorem illegalWordsAreTheThreeCases : Obligations.IllegalWordsAreTheThreeCases := by
  intro w
  simp only [← illegalReason_ne_none_iff_toNat, not_not]
  refine ⟨fun h => ⟨decode_of_illegalReason h, fun s => ?_⟩, decode_ne_illegal_of_legal⟩
  rw [decode_of_illegalReason h]
  rfl

/-! ### The opcode map and the worked words -/

theorem commandWord_eq_ofNat (op : BitVec 4) (opnd : BitVec 32) :
    commandWord op opnd = BitVec.ofNat 64 (op.toNat * 2 ^ 60 + opnd.toNat) := by
  rw [← commandWord_toNat, BitVec.ofNat_toNat, BitVec.setWidth_eq]

/-- Settles O4: each of these words is the encoding of its command. -/
theorem opcodeMapReadsTheOperandWhole : Obligations.OpcodeMapReadsTheOperandWhole := by
  refine ⟨fun opnd => ⟨?_, ?_, ?_⟩, decode_encode (i := .finish) rfl, decode_encode (i := .rdlen) rfl,
    decode_encode (i := .rdstat) rfl, decode_encode (i := .rddbg) rfl⟩
  · exact (commandWord_eq_ofNat opStart opnd) ▸ decode_encode (i := .start opnd) rfl
  · exact (commandWord_eq_ofNat opSample opnd) ▸ decode_encode (i := .sample opnd) rfl
  · exact (commandWord_eq_ofNat opRdbyte opnd) ▸ decode_encode (i := .rdbyte opnd) rfl

/-- Settles O5, by decoding each word. -/
theorem workedWordsDecode : Obligations.WorkedWordsDecode := by
  unfold Obligations.WorkedWordsDecode
  decide

/-! ### Lines of assembly -/

theorem unit_mul_eq_withSign (sign : Bool) (x : Int) : (if sign then -1 else 1) * x = withSign sign x := by
  cases sign
  · exact one_mul x
  · exact neg_one_mul x

/-- R78's conversion of a decimal literal is the rounding that the arithmetic has. -/
theorem correctlyRounded_floatBits_decimal (negative : Bool) (digits fractionDigits : Nat) :
    CorrectlyRounded ((if negative then -1 else 1) * ((digits : Int) * 2 ^ 149)) (10 ^ fractionDigits)
      (floatBits (.decimal negative digits fractionDigits)) := by
  have hround : CorrectlyRounded (withSign negative (digits * 2 ^ 149 : Nat)) (10 ^ fractionDigits)
      (floatBits (.decimal negative digits fractionDigits)) :=
    correctlyRounded_pack negative _ _ (Nat.pow_pos (by decide))
  rw [unit_mul_eq_withSign]
  exact_mod_cast hround

/-- Settles O6: each line is the encoding of what it names, and a float operand is rounded as the arithmetic rounds. -/
theorem assembledLinesDecodeBack : Obligations.AssembledLinesDecodeBack := by
  refine ⟨fun f => ⟨rfl, decode_encode rfl⟩, fun f n hn => ?_, fun n hn => ?_, fun h hh => ?_, rfl, rfl, rfl, rfl,
    fun negative digits fractionDigits =>
      ⟨correctlyRounded_floatBits_decimal negative digits fractionDigits, f32Sign_pack_roundMagnitude negative _ _⟩,
    isInfinityOf_pack, fun _ => rfl⟩
  · refine ⟨_, if_neg (Nat.ne_of_gt hn), ?_, _, rfl, rfl⟩
    rw [List.map_replicate, decode_encode rfl]
  · exact ⟨_, if_pos hn, _, decode_encode rfl, (BitVec.toNat_ofNat n 32).trans (Nat.mod_eq_of_lt hn)⟩
  · exact ⟨_, if_pos hh, (BitVec.toNat_ofNat h 64).trans (Nat.mod_eq_of_lt hh)⟩

end Sys2Proof

namespace Sys2Proof.Machine

section
variable {s t : State}

/-! ### Every command completes -/

/-- Under (I-d) RDBYTE meets no UNWRITTEN byte below the length, and nothing else stops a command. -/
theorem exec_completes (hinv : Invariants s) (i : Instr) : ∃ t, exec i s = .next t := by
  cases h : exec i s with
  | next t => exact ⟨t, rfl⟩
  | fault r =>
    obtain ⟨index, -, hlt, hunwritten, -⟩ := exec_fault_cases h
    have hwritten := (hinv.written_iff index.toNat).2 (BitVec.lt_def.1 (BitVec.not_le.1 hlt))
    rw [hunwritten] at hwritten
    cases hwritten
  | refused r => exact absurd h (exec_not_refused i s r)

theorem step_of_nil (h : s.inputs = []) : step s = .next s := by
  unfold step
  rw [h]

theorem step_of_takeResponse {rest : List HostInput} (hreset : s.wasReset = true) (h : s.inputs = .takeResponse :: rest) :
    step s = .next (takeResponse { s with inputs := rest }) := by
  unfold step
  rw [h]
  exact if_pos hreset

/-- Settles O45: a command completes by (I-d), which the taking off of an input keeps. -/
theorem everyCommandCompletes : Obligations.EveryCommandCompletes := by
  refine fun s hinv => ⟨exec_completes hinv, fun hreset => ?_⟩
  cases hin : s.inputs with
  | nil => exact ⟨s, step_of_nil hin⟩
  | cons input rest =>
    cases input with
    | reset => exact ⟨_, step_of_reset hin⟩
    | takeResponse => exact ⟨_, step_of_takeResponse hreset hin⟩
    | command w =>
      rw [step_of_command hreset hin]
      exact exec_completes ((sameConversion_withInputs s rest).invariants hinv) (decode w)

/-! ### The responses of a command -/

theorem exec_responses_of_not_read {i : Instr} (hread : isRead i = false) (h : exec i s = .next t) :
    t.responses = s.responses := by
  rcases exec_next_cases h with ⟨_, rfl, _, rfl⟩ | ⟨_, rfl, _, rfl⟩ | ⟨_, rfl, _, rfl⟩ | ⟨_, rfl, _, _, rfl⟩
    | ⟨_, rfl, _, _, _, rfl⟩ | ⟨_, rfl, _, _, _, rfl⟩ | ⟨rfl, _, rfl⟩ | ⟨rfl, _, rfl⟩ | ⟨_, rfl, _⟩ | ⟨_, _, rfl, _⟩
    | ⟨rfl, _⟩ | ⟨rfl, _⟩ | ⟨rfl, _⟩ | ⟨_, rfl, rfl⟩
  · exact beginConversion_responses _ _
  · exact raise_responses _ _
  · exact raise_responses _ _
  · rfl
  · exact raise_responses _ _
  · exact encodeBit_responses _ _
  · exact raise_responses _ _
  · exact alignLength_responses _
  · cases hread
  · cases hread
  · cases hread
  · cases hread
  · cases hread
  · exact raise_responses _ _

/-- Settles O52: a read responds once, and no other command writes the response channel. -/
theorem oneResponsePerReadCommand : Obligations.OneResponsePerReadCommand := by
  intro i s t h
  cases hread : isRead i with
  | true =>
    rcases exec_read_cases hread h with ⟨index, -, -, rfl⟩ | ⟨v, rfl, -⟩
    · exact ⟨[Config.freeResponse s.draws], rfl, rfl⟩
    · exact ⟨[v], rfl, rfl⟩
  | false => exact ⟨[], by rw [exec_responses_of_not_read hread h, List.append_nil], rfl⟩

end

/-! ### The word the next step runs -/

/-- Settles O39: the placed word is the first input, and the step takes it off again. -/
theorem fetchedWordRunsNext : Obligations.FetchedWordRunsNext :=
  fun _ _ _ hbits => ⟨_, if_pos hbits, step_of_command rfl rfl⟩

end Sys2Proof.Machine
end

section
/-! PROOFS. The family 40_start.md: which gains START's domain check lets through (R101, R106), and the conversion that an accepted
START begins (R102 to R105). -/

namespace Sys2Proof.Machine

/-! ### The gains that START accepts -/

theorem gainAccepted_eq_true_iff (p : Params) (gainDb : Binary32) :
    gainAccepted p gainDb = true ↔
      isNaN gainDb = false ∧ flt gainDb p.gainDbMin = false ∧ fgt gainDb p.gainDbMax = false := by
  simp [gainAccepted, and_assoc]

theorem gainAccepted_eq_false_iff (p : Params) (gainDb : Binary32) :
    gainAccepted p gainDb = false ↔
      isNaN gainDb = true ∨ flt gainDb p.gainDbMin = true ∨ fgt gainDb p.gainDbMax = true := by
  rw [gainAccepted, Bool.not_eq_false', Bool.or_eq_true, Bool.or_eq_true, or_assoc]

theorem MeetsConditions.ofConfig (c : Config) : MeetsConditions c.params c.params.dbToLinear := by
  obtain ⟨hmeets, -⟩ := configurationsMeetTheConditions
  exact hmeets c

/-- The bounds are finite (00_scope.md R6), so a finite gain is accepted by its exact value. -/
theorem gainAccepted_iff_of_isFinite (c : Config) {gainDb : Binary32} (h : isFinite gainDb = true) :
    gainAccepted c.params gainDb = true ↔
      signedUnitsOf c.params.gainDbMin ≤ signedUnitsOf gainDb ∧ signedUnitsOf gainDb ≤ signedUnitsOf c.params.gainDbMax := by
  obtain ⟨hmin, -⟩ := (MeetsConditions.ofConfig c).gainMin
  obtain ⟨hmax, -⟩ := (MeetsConditions.ofConfig c).gainMax
  rw [gainAccepted_eq_true_iff, ← Bool.not_eq_true (flt _ _), ← Bool.not_eq_true (fgt _ _), flt, fgt_iff_of_isFinite hmin h,
    fgt_iff_of_isFinite h hmax, not_lt, not_lt]
  exact and_iff_right (isNaN_eq_false_of_isFinite _ h)

/-- 40_start.md R106: both bounds are accepted, since zero lies between them. -/
theorem gainAccepted_bounds (c : Config) :
    gainAccepted c.params c.params.gainDbMin = true ∧ gainAccepted c.params c.params.gainDbMax = true := by
  obtain ⟨hmin, hminZero⟩ := (MeetsConditions.ofConfig c).gainMin
  obtain ⟨hmax, hmaxZero⟩ := (MeetsConditions.ofConfig c).gainMax
  rw [gainAccepted_iff_of_isFinite c hmin, gainAccepted_iff_of_isFinite c hmax]
  exact ⟨⟨le_rfl, hminZero.trans hmaxZero⟩, hminZero.trans hmaxZero, le_rfl⟩

theorem gainAccepted_of_isZero (c : Config) {gainDb : Binary32} (h : isZero gainDb = true) :
    gainAccepted c.params gainDb = true := by
  obtain ⟨-, hminZero⟩ := (MeetsConditions.ofConfig c).gainMin
  obtain ⟨-, hmaxZero⟩ := (MeetsConditions.ofConfig c).gainMax
  have hzero : signedUnitsOf gainDb = 0 := by
    rw [signedUnitsOf_eq_codeUnits, (isZero_iff gainDb).1 h]
    cases f32Sign gainDb <;> rfl
  rw [gainAccepted_iff_of_isFinite c (isFinite_of_isZero h), hzero]
  exact ⟨hminZero, hmaxZero⟩

/-- 40_start.md R101: the infinities lie outside the finite bounds. -/
theorem gainAccepted_infinities (c : Config) :
    gainAccepted c.params 0x7F800000 = false ∧ gainAccepted c.params 0xFF800000 = false := by
  obtain ⟨hmin, -⟩ := (MeetsConditions.ofConfig c).gainMin
  obtain ⟨hmax, -⟩ := (MeetsConditions.ofConfig c).gainMax
  obtain ⟨-, hbeyond, -⟩ := comparisonsFollowTheValues
  obtain ⟨habove, -⟩ := hbeyond _ hmax
  obtain ⟨-, hbelow⟩ := hbeyond _ hmin
  exact ⟨(gainAccepted_eq_false_iff _ _).2 (.inr (.inr habove)), (gainAccepted_eq_false_iff _ _).2 (.inr (.inl hbelow))⟩

/-! ### The statements -/

/-- Settles O13: these are the gains that the domain check rejects. -/
theorem startOutsideTheGainRangeRaises : Obligations.StartOutsideTheGainRangeRaises := by
  intro gainDb s
  obtain ⟨hplus, hminus⟩ := gainAccepted_infinities s.config
  exact ⟨fun h => exec_start_of_rejected ((gainAccepted_eq_false_iff _ _).2 h), exec_start_of_rejected hplus,
    exec_start_of_rejected hminus⟩

/-- Settles O14: zero and both bounds are accepted, and R6 gives `DB_TO_LINEAR` at the zeros. -/
theorem startAcceptsZeroAndBothBounds : Obligations.StartAcceptsZeroAndBothBounds := by
  intro s
  obtain ⟨hplus, hminus⟩ := (MeetsConditions.ofConfig s.config).gainAtZero
  obtain ⟨hmin, hmax⟩ := gainAccepted_bounds s.config
  exact ⟨⟨_, exec_start_of_accepted (gainAccepted_of_isZero _ (by decide)), rfl, hplus⟩,
    ⟨_, exec_start_of_accepted (gainAccepted_of_isZero _ (by decide)), rfl, hminus⟩,
    ⟨_, exec_start_of_accepted hmin, rfl, rfl⟩, ⟨_, exec_start_of_accepted hmax, rfl, rfl⟩⟩

/-- Settles O12: with `OUT_LEN = 0` after it, each RDBYTE is out of range. -/
theorem acceptedStartBeginsAConversion : Obligations.AcceptedStartBeginsAConversion := by
  intro gainDb s hnan hmin hmax
  have hacc := (gainAccepted_eq_true_iff s.config.params gainDb).2 ⟨hnan, hmin, hmax⟩
  refine ⟨_, exec_start_of_accepted hacc, rfl, memRead_nil, fun index => ?_⟩
  have hrange : (beginConversion gainDb s).outLen ≤ index := BitVec.le_def.2 (Nat.zero_le _)
  exact ⟨_, exec_rdbyte_of_le hrange, rfl⟩

end Sys2Proof.Machine
end

section
/-! PROOFS. The family 41_sample.md: the arithmetic of one sample never gives a NaN (R124 to R127, R129), what SAMPLE does in each
case (R121 to R131, R136), and what a run of samples leaves in the counter, in `ACC` and in `OUT` (R133 to R135, R137). -/

namespace Sys2Proof

/-! ### Patterns that are no NaN -/

theorem eq_of_sign_of_magnitude {a b : Binary32} (hsign : f32Sign a = f32Sign b)
    (hmag : a.toNat % 2 ^ 31 = b.toNat % 2 ^ 31) : a = b := by
  have hsplit (f : Binary32) : f.toNat = (f32Sign f).toNat * 2 ^ 31 + f.toNat % 2 ^ 31 := by
    have hlt := f.isLt
    rw [f32Sign, BitVec.getLsbD, Nat.toNat_testBit]
    omega
  apply BitVec.eq_of_toNat_eq
  rw [hsplit a, hsplit b, hsign, hmag]

theorem isFinite_or_isInfinite {f : Binary32} (h : isNaN f = false) : isFinite f = true ∨ isInfinite f = true := by
  rw [← Bool.not_eq_true, isNaN_iff, not_lt] at h
  rw [isFinite_iff, isInfinite_iff]
  exact lt_or_eq_of_le h

theorem eq_pack_of_isInfinite {f : Binary32} (h : isInfinite f = true) :
    f = packBinary32 (f32Sign f) infinityMagnitude := by
  obtain ⟨hmag, hsign⟩ := packBinary32_fields (f32Sign f) infinityMagnitude (by decide)
  exact eq_of_sign_of_magnitude hsign.symm (((isInfinite_iff f).1 h).trans hmag.symm)

theorem eq_pack_of_isZero {f : Binary32} (h : isZero f = true) : f = packBinary32 (f32Sign f) 0 := by
  obtain ⟨hmag, hsign⟩ := packBinary32_fields (f32Sign f) 0 (by decide)
  exact eq_of_sign_of_magnitude hsign.symm (((isZero_iff f).1 h).trans hmag.symm)

theorem isNaN_pack_roundMagnitude (sign : Bool) (num den : Nat) :
    isNaN (packBinary32 sign (roundMagnitude num den)) = false := by
  have hle := roundMagnitude_le num den
  obtain ⟨hmag, -⟩ := packBinary32_fields sign (roundMagnitude num den) (hle.trans_lt (by decide))
  rw [← Bool.not_eq_true, isNaN_iff, hmag, not_lt]
  exact hle

theorem isNaN_fmul_of_isFinite {a b : Binary32} (ha : isFinite a = true) (hb : isFinite b = true) :
    isNaN (fmul a b) = false := by
  rw [fmul_of_isFinite ha hb]
  exact isNaN_pack_roundMagnitude _ _ _

theorem isNaN_fadd_of_isFinite {a b : Binary32} (ha : isNaN a = false) (hb : isFinite b = true) :
    isNaN (fadd a b) = false := by
  rcases isFinite_or_isInfinite ha with hfin | hinf
  · rw [fadd_of_isFinite hfin hb]
    exact isNaN_pack_roundMagnitude _ _ _
  · rw [fadd_of_isInfinite hinf (isNaN_eq_false_of_isFinite _ hb), if_neg (by simp [isInfinite_eq_false_of_isFinite hb])]
    exact ha

/-! ### Division by a positive finite value -/

theorem f32Sign_of_positive {f : Binary32} (h : 0 < signedUnitsOf f) : f32Sign f = false := by
  cases hsign : f32Sign f
  · rfl
  · rw [signedUnitsOf_eq, hsign, withSign_true] at h
    omega

theorem isZero_of_positive {f : Binary32} (h : 0 < signedUnitsOf f) : isZero f = false := by
  have hsign := f32Sign_of_positive h
  cases hzero : isZero f
  · rfl
  · rw [signedUnitsOf_eq_codeUnits, hsign, (isZero_iff f).1 hzero] at h
    cases h

/-- The quotient has the dividend's sign, and an infinite dividend is its own quotient. -/
theorem fdiv_of_positive {y d : Binary32} (hd : isFinite d = true) (hpos : 0 < signedUnitsOf d) (hy : isNaN y = false) :
    (isFinite y = true ∧ fdiv y d = packBinary32 (f32Sign y) (roundMagnitude (unitsOf y * 2 ^ 149) (unitsOf d)))
    ∨ (isInfinite y = true ∧ fdiv y d = y) := by
  have hsign : (f32Sign y != f32Sign d) = f32Sign y := by rw [f32Sign_of_positive hpos, Bool.bne_false]
  rcases isFinite_or_isInfinite hy with hfin | hinf
  · exact .inl ⟨hfin, by rw [fdiv_of_isFinite hfin hd (isZero_of_positive hpos), hsign]⟩
  · refine .inr ⟨hinf, ?_⟩
    rw [fdiv_of_isInfinite hinf (isNaN_eq_false_of_isFinite _ hd), if_neg (by simp [isInfinite_eq_false_of_isFinite hd]),
      hsign]
    exact (eq_pack_of_isInfinite hinf).symm

theorem isNaN_fdiv_of_positive {y d : Binary32} (hd : isFinite d = true) (hpos : 0 < signedUnitsOf d)
    (hy : isNaN y = false) : isNaN (fdiv y d) = false := by
  rcases fdiv_of_positive hd hpos hy with ⟨-, heq⟩ | ⟨-, heq⟩ <;> rw [heq]
  · exact isNaN_pack_roundMagnitude _ _ _
  · exact hy

/-! ### Zeros -/

theorem unitsOf_of_isZero {f : Binary32} (h : isZero f = true) : unitsOf f = 0 := by
  rw [unitsOf_eq_codeUnits, (isZero_iff f).1 h]
  rfl

theorem signedUnitsOf_of_isZero {f : Binary32} (h : isZero f = true) : signedUnitsOf f = 0 := by
  simp [signedUnitsOf, unitsOf_of_isZero h]

theorem roundMagnitude_zero (den : Nat) : roundMagnitude 0 den = 0 := by
  simp [roundMagnitude, roundHalfEven, infinityMagnitude]

theorem isZero_pack_zero (sign : Bool) : isZero (packBinary32 sign 0) = true := (isZeroOf_pack sign).1

theorem isZero_fmul {a b : Binary32} (ha : isZero a = true) (hb : isFinite b = true) : isZero (fmul a b) = true := by
  rw [fmul_of_isFinite (isFinite_of_isZero ha) hb, unitsOf_of_isZero ha, Nat.zero_mul, roundMagnitude_zero]
  exact isZero_pack_zero _

theorem isZero_fdiv {a b : Binary32} (ha : isZero a = true) (hb : isFinite b = true) (hz : isZero b = false) :
    isZero (fdiv a b) = true := by
  rw [fdiv_of_isFinite (isFinite_of_isZero ha) hb hz, unitsOf_of_isZero ha, Nat.zero_mul, roundMagnitude_zero]
  exact isZero_pack_zero _

/-! ### Sign change -/

@[simp] theorem f32Sign_fneg (f : Binary32) : f32Sign (fneg f) = !f32Sign f := by
  simp [fneg, f32Sign]

theorem magnitude_fneg (f : Binary32) : (fneg f).toNat % 2 ^ 31 = f.toNat % 2 ^ 31 := by
  have hlow : (fneg f).setWidth 31 = f.setWidth 31 := by
    ext i hi
    simp [fneg]
  simpa using congrArg BitVec.toNat hlow

@[simp] theorem isFinite_fneg (f : Binary32) : isFinite (fneg f) = isFinite f := by
  rw [Bool.eq_iff_iff, isFinite_iff, isFinite_iff, magnitude_fneg]

@[simp] theorem signedUnitsOf_fneg (f : Binary32) : signedUnitsOf (fneg f) = -signedUnitsOf f := by
  rw [signedUnitsOf_eq_codeUnits, signedUnitsOf_eq_codeUnits, magnitude_fneg, f32Sign_fneg]
  cases f32Sign f <;> simp

end Sys2Proof

namespace Sys2Proof.Machine

/-! ### The clamp -/

section
variable (c : Config)

theorem clampLimit_isFinite : isFinite c.params.clampLimit = true := (MeetsConditions.ofConfig c).clamp.1

theorem clampLimit_pos : 0 < signedUnitsOf c.params.clampLimit := (MeetsConditions.ofConfig c).clamp.2

theorem clampSample_of_fgt {p : Params} {x : Binary32} (h : fgt x p.clampLimit = true) : clampSample p x = p.clampLimit :=
  if_pos h

theorem clampSample_of_inside {p : Params} {x : Binary32} (hmax : fgt x p.clampLimit = false)
    (hmin : flt x (fneg p.clampLimit) = false) : clampSample p x = x := by
  simp [clampSample, hmax, hmin]

theorem clampSample_of_between {x : Binary32} (h : isFinite x = true)
    (hlow : -signedUnitsOf c.params.clampLimit ≤ signedUnitsOf x)
    (hhigh : signedUnitsOf x ≤ signedUnitsOf c.params.clampLimit) : clampSample c.params x = x := by
  have hlimit := clampLimit_isFinite c
  apply clampSample_of_inside
  · rwa [← Bool.not_eq_true, fgt_iff_of_isFinite h hlimit, not_lt]
  · rwa [← Bool.not_eq_true, flt, fgt_iff_of_isFinite (by rwa [isFinite_fneg]) h, not_lt, signedUnitsOf_fneg]

theorem clampSample_of_isZero {x : Binary32} (h : isZero x = true) : clampSample c.params x = x := by
  have hpos := clampLimit_pos c
  have hunits := signedUnitsOf_of_isZero h
  exact clampSample_of_between c (isFinite_of_isZero h) (by omega) (by omega)

theorem clampSample_bounds :
    clampSample c.params c.params.clampLimit = c.params.clampLimit
    ∧ clampSample c.params (fneg c.params.clampLimit) = fneg c.params.clampLimit := by
  have hlimit := clampLimit_isFinite c
  have hpos := clampLimit_pos c
  have hneg := signedUnitsOf_fneg c.params.clampLimit
  exact ⟨clampSample_of_between c hlimit (by omega) le_rfl,
    clampSample_of_between c (by rwa [isFinite_fneg]) (by omega) (by omega)⟩

theorem orderKey_neg_clampLimit_lt : orderKey (fneg c.params.clampLimit) < orderKey c.params.clampLimit := by
  have hpos := clampLimit_pos c
  rw [orderKey_lt_iff, signedUnitsOf_fneg]
  omega

/-- The limit is positive, so nothing lies beyond both bounds. -/
theorem clampSample_of_flt {x : Binary32} (h : flt x (fneg c.params.clampLimit) = true) :
    clampSample c.params x = fneg c.params.clampLimit := by
  have hno : ¬ fgt x c.params.clampLimit = true := by
    have hlt := orderKey_neg_clampLimit_lt c
    simp only [flt, fgt, Bool.and_eq_true, decide_eq_true_eq] at h ⊢
    omega
  exact (if_neg hno).trans (if_pos h)

theorem clampSample_infinities :
    clampSample c.params 0x7F800000 = c.params.clampLimit
    ∧ clampSample c.params 0xFF800000 = fneg c.params.clampLimit := by
  obtain ⟨-, hbeyond, -⟩ := comparisonsFollowTheValues
  obtain ⟨habove, -⟩ := hbeyond _ (clampLimit_isFinite c)
  obtain ⟨-, hbelow⟩ := hbeyond (fneg c.params.clampLimit) (by rw [isFinite_fneg, clampLimit_isFinite])
  exact ⟨clampSample_of_fgt habove, clampSample_of_flt c hbelow⟩

/-- 41_sample.md R124: the clamp selects a bound, or a finite sample that lies between the bounds. -/
theorem clampSample_cases {x : Binary32} (h : isNaN x = false) :
    clampSample c.params x = c.params.clampLimit ∨ clampSample c.params x = fneg c.params.clampLimit
    ∨ clampSample c.params x = x ∧ isFinite x = true ∧ -signedUnitsOf c.params.clampLimit ≤ signedUnitsOf x
      ∧ signedUnitsOf x ≤ signedUnitsOf c.params.clampLimit := by
  rcases isFinite_or_isInfinite h with hfin | hinf
  · have hlimit := clampLimit_isFinite c
    cases hmax : fgt x c.params.clampLimit with
    | true => exact .inl (clampSample_of_fgt hmax)
    | false =>
      cases hmin : flt x (fneg c.params.clampLimit) with
      | true => exact .inr (.inl (clampSample_of_flt c hmin))
      | false =>
        refine .inr (.inr ⟨clampSample_of_inside hmax hmin, hfin, ?_, ?_⟩)
        · rwa [← Bool.not_eq_true, flt, fgt_iff_of_isFinite (by rwa [isFinite_fneg]) hfin, not_lt, signedUnitsOf_fneg]
            at hmin
        · rwa [← Bool.not_eq_true, fgt_iff_of_isFinite hfin hlimit, not_lt] at hmax
  · obtain ⟨hplus, hminus⟩ := clampSample_infinities c
    have hx := eq_pack_of_isInfinite hinf
    cases hsign : f32Sign x <;> rw [hsign] at hx <;> subst hx
    · exact .inl hplus
    · exact .inr (.inl hminus)

theorem clampSample_isFinite {x : Binary32} (h : isNaN x = false) : isFinite (clampSample c.params x) = true := by
  have hlimit := clampLimit_isFinite c
  rcases clampSample_cases c h with heq | heq | ⟨heq, hfin, -⟩ <;> rw [heq]
  · exact hlimit
  · rwa [isFinite_fneg]
  · exact hfin

theorem clampSample_natAbs_le {x : Binary32} (h : isNaN x = false) :
    (signedUnitsOf (clampSample c.params x)).natAbs ≤ unitsOf c.params.clampLimit := by
  have hunits : (unitsOf c.params.clampLimit : Int) = signedUnitsOf c.params.clampLimit := by
    rw [signedUnitsOf_eq, f32Sign_of_positive (clampLimit_pos c), withSign_false]
  rcases clampSample_cases c h with heq | heq | ⟨heq, -, hlow, hhigh⟩ <;> rw [heq]
  · omega
  · rw [signedUnitsOf_fneg]
    omega
  · omega

end

/-- Settles O20, by the three cases of the clamp. -/
theorem clampSelectsTheNearestBound : Obligations.ClampSelectsTheNearestBound :=
  fun c _ h => ⟨clampSample_of_fgt, clampSample_of_flt c, clampSample_of_inside, clampSample_isFinite c h,
    clampSample_natAbs_le c h, clampSample_infinities c⟩

/-! ### The gained and the scaled sample -/

section
variable (c : Config)

theorem scaleDivisor_isFinite : isFinite c.params.scaleDivisor = true := (MeetsConditions.ofConfig c).divisor.1

theorem scaleDivisor_pos : 0 < signedUnitsOf c.params.scaleDivisor := (MeetsConditions.ofConfig c).divisor.2

theorem isFinite_biasFloat : isFinite biasFloat = true := by decide

theorem positiveFinite_iff (g : Binary32) : positiveFinite g = true ↔ isFinite g = true ∧ 0 < signedUnitsOf g := by
  rw [positiveFinite, Bool.and_eq_true, isFinite_and_fgt_plusZero_iff]

theorem isNaN_gainedSample {g x : Binary32} (hg : isFinite g = true) (hx : isNaN x = false) :
    isNaN (gainedSample c.params g x) = false :=
  isNaN_fmul_of_isFinite (clampSample_isFinite c hx) hg

theorem scaledSample_of_isInfinite {g x : Binary32} (h : isInfinite (gainedSample c.params g x) = true) :
    scaledSample c.params g x = gainedSample c.params g x := by
  rcases fdiv_of_positive (scaleDivisor_isFinite c) (scaleDivisor_pos c) (isNaN_eq_false_of_isInfinite h)
    with ⟨hfin, -⟩ | ⟨-, hquotient⟩
  · rw [isInfinite_eq_false_of_isFinite hfin] at h
    cases h
  · rw [scaledSample, hquotient, fadd_of_isInfinite h (by decide)]
    exact if_neg (by rw [isInfinite_eq_false_of_isFinite isFinite_biasFloat]; exact nofun)

/-- 41_sample.md R136: a zero of either sign keeps its sign up to the quotient, and the bias absorbs it. -/
theorem scaledSample_of_isZero {g x : Binary32} (hg : positiveFinite g = true) (hx : isZero x = true) :
    scaledSample c.params g x = biasFloat := by
  obtain ⟨hgfin, -⟩ := (positiveFinite_iff g).1 hg
  have hgained : isZero (gainedSample c.params g x) = true := by
    rw [gainedSample, clampSample_of_isZero c hx]
    exact isZero_fmul hx hgfin
  have hquotient := isZero_fdiv hgained (scaleDivisor_isFinite c) (isZero_of_positive (scaleDivisor_pos c))
  have hbias : ∀ sign, fadd (packBinary32 sign 0) biasFloat = biasFloat := by decide
  rw [scaledSample, eq_pack_of_isZero hquotient, hbias]

end

/-- Settles O21, step by step: the factors of the gained sample are finite, the divisor is positive and the bias is finite. -/
theorem scaledSampleIsNeverNaN : Obligations.ScaledSampleIsNeverNaN := by
  intro c g x hg hx
  have hgained := isNaN_gainedSample c ((positiveFinite_iff g).1 hg).1 hx
  have hquotient := isNaN_fdiv_of_positive (scaleDivisor_isFinite c) (scaleDivisor_pos c) hgained
  exact ⟨hgained, hquotient, isNaN_fadd_of_isFinite hquotient isFinite_biasFloat⟩

/-! ### The decision -/

/-- The float of each of the 64 counter values is finite and exact. -/
theorem floatOfNat_counter : ∀ n < 64, isFinite (floatOfNat n) = true ∧ signedUnitsOf (floatOfNat n) = n * 2 ^ 149 := by
  decide

/-- The comparison of two counter values is that of the numbers. -/
theorem fge_floatOfNat {m n : Nat} (hm : m < 64) (hn : n < 64) : fge (floatOfNat m) (floatOfNat n) = decide (n ≤ m) := by
  obtain ⟨hmfin, hmunits⟩ := floatOfNat_counter m hm
  obtain ⟨hnfin, hnunits⟩ := floatOfNat_counter n hn
  rw [Bool.eq_iff_iff, fge_iff_of_isFinite hmfin hnfin, hmunits, hnunits, decide_eq_true_eq]
  omega

/-- Settles O22: the counter values are finite and exact, and a finite value lies between the infinities. -/
theorem decisionAtEqualityAndInfinity : Obligations.DecisionAtEqualityAndInfinity := by
  intro d
  obtain ⟨hfin, hunits⟩ := floatOfNat_counter d.toNat d.isLt
  have hnan := isNaN_eq_false_of_isFinite _ hfin
  have hkey := natAbs_orderKey_lt hfin
  have hplus : orderKey 0x7F800000 = infinityMagnitude := by decide
  have hminus : orderKey 0xFF800000 = -(infinityMagnitude : Int) := by decide
  refine ⟨hfin, hunits, by simp [fge_floatOfNat d.isLt d.isLt], ?_, ?_⟩
  · rw [fge_iff (by decide) hnan, hplus]
    omega
  · rw [← Bool.not_eq_true, fge_iff (by decide) hnan, hminus]
    omega

/-- Settles O55: the infinity passes the divisor and the bias, and is then compared with a finite value. -/
theorem overflowedSampleKeepsItsInfinity : Obligations.OverflowedSampleKeepsItsInfinity := by
  intro c g x d h
  have hscaled := scaledSample_of_isInfinite c h
  refine ⟨hscaled, ?_⟩
  obtain ⟨-, -, -, hplus, hminus⟩ := decisionAtEqualityAndInfinity d
  rw [decisionBit, hscaled, eq_pack_of_isInfinite h]
  cases f32Sign (gainedSample c.params g x)
  · exact hplus
  · exact hminus

/-! ### SAMPLE, case by case -/

section
variable {s : State}

theorem exec_sample_of_full (x : Binary32) (hphase : s.phase = .encoding)
    (hfull : s.outLen.toNat = s.config.params.maxCapacity) : exec (.sample x) s = .next s := by
  simp [exec, execSample, hphase, isFull, hfull]

theorem exec_sample_of_isNaN {x : Binary32} (hphase : s.phase = .encoding)
    (hlt : s.outLen.toNat < s.config.params.maxCapacity) (hnan : isNaN x = true) :
    exec (.sample x) s = .next (raise .domain s) := by
  simp [exec, execSample, hphase, isFull, hlt.ne, hnan]

theorem exec_sample_of_accepted {x : Binary32} (hphase : s.phase = .encoding)
    (hlt : s.outLen.toNat < s.config.params.maxCapacity) (hnan : isNaN x = false) :
    exec (.sample x) s = .next (encodeSample x s) := by
  simp [exec, execSample, hphase, isFull, hlt.ne, hnan]

/-- Of a sample that is no NaN the block takes the decision bit alone. -/
theorem exec_sample_congr {x y : Binary32} (hx : isNaN x = false) (hy : isNaN y = false)
    (hbit : s.phase = .encoding → sampleBit x s = sampleBit y s) : exec (.sample x) s = exec (.sample y) s := by
  by_cases hphase : s.phase = .encoding
  · simp [exec, execSample, hphase, hx, hy, encodeSample, hbit hphase]
  · rw [exec_sample_of_not_encoding x hphase, exec_sample_of_not_encoding y hphase]

theorem sampleBit_congr {x y : Binary32} (h : scaledSample s.config.params s.g x = scaledSample s.config.params s.g y) :
    sampleBit x s = sampleBit y s := by
  rw [sampleBit, sampleBit, decisionBit, decisionBit, h]

theorem scaledSample_congr {p : Params} {x y : Binary32} (g : Binary32) (h : clampSample p x = clampSample p y) :
    scaledSample p g x = scaledSample p g y := by
  rw [scaledSample, scaledSample, gainedSample, gainedSample, h]

theorem encodeBit_delta_toNat (bit : Bool) (s : State) :
    (encodeBit bit s).delta.toNat = counterAfter bit s.delta.toNat := by
  rw [encodeBit_delta]
  exact stepDelta_toNat bit s.delta

theorem encodeBit_acc_toNat (bit : Bool) (s : State) :
    (encodeBit bit s).acc.toNat = s.acc.toNat / 2 + 128 * bit.toNat := by
  rw [encodeBit_acc]
  exact packBit_toNat bit s.acc

/-- An encoded bit writes the counter, the accumulator and the output alone. -/
theorem encodeBit_frame (bit : Bool) (s : State) :
    encodeBit bit s = { s with
      delta := (encodeBit bit s).delta
      acc := (encodeBit bit s).acc
      nbits := (encodeBit bit s).nbits
      outLen := (encodeBit bit s).outLen
      out := (encodeBit bit s).out } := by
  by_cases h7 : s.nbits = 7
  · rw [encodeBit_eighth bit s h7]
  · rw [encodeBit_counted bit s h7]

theorem encodeBit_nbits_toNat (bit : Bool) (s : State) :
    (encodeBit bit s).nbits.toNat = if s.nbits = 7 then 0 else s.nbits.toNat + 1 := by
  split
  · next h7 =>
    rw [encodeBit_eighth bit s h7]
    rfl
  · next h7 =>
    rw [encodeBit_counted bit s h7]
    change (s.nbits + 1).toNat = s.nbits.toNat + 1
    generalize s.nbits = n at h7 ⊢
    revert n
    decide

/-- The eighth bit of a group writes the accumulator with that bit at the old length, and no other byte is written. -/
theorem memRead_encodeBit (bit : Bool) (s : State) (a : Nat) :
    memRead (encodeBit bit s).out a
      = if s.nbits = 7 ∧ a = s.outLen.toNat then some (encodeBit bit s).acc else memRead s.out a := by
  by_cases h7 : s.nbits = 7
  · rw [encodeBit_eighth bit s h7, memRead_memWrite]
    simp only [h7, true_and]
  · rw [encodeBit_counted bit s h7, if_neg (fun h => h7 h.1)]

end

/-- Settles O16. -/
theorem sampleOutsideAConversionRaises : Obligations.SampleOutsideAConversionRaises :=
  fun x _ hphase => exec_sample_of_not_encoding x hphase

/-- Settles O17. -/
theorem sampleAtCapacityHasNoEffect : Obligations.SampleAtCapacityHasNoEffect :=
  fun x _ hphase hfull => exec_sample_of_full x hphase hfull

/-- Settles O18. -/
theorem nanSampleRaises : Obligations.NaNSampleRaises :=
  fun _ _ hphase hlt hnan => exec_sample_of_isNaN hphase hlt hnan

/-- Settles O19, by what an encoded bit does to each register. -/
theorem acceptedSampleEncodesOneBit : Obligations.AcceptedSampleEncodesOneBit := by
  intro x s hphase hlt hnan p c bit
  refine ⟨encodeBit bit s, exec_sample_of_accepted hphase hlt hnan, encodeBit_delta_toNat bit s, encodeBit_acc_toNat bit s,
    fun h7 => ?_, fun h7 => ?_, encodeBit_frame bit s⟩
  · have hn : s.nbits = 7 := BitVec.eq_of_toNat_eq h7
    refine ⟨?_, ?_, ?_, fun a ha => ?_⟩
    · rw [encodeBit_eighth bit s hn]
    · rw [encodeBit_outLen_toNat bit hlt, if_pos hn]
    · rw [memRead_encodeBit, if_pos ⟨hn, rfl⟩]
    · rw [memRead_encodeBit, if_neg (fun h => ha h.2)]
  · have hn : s.nbits ≠ 7 := fun h => h7 (by rw [h]; rfl)
    refine ⟨?_, ?_, fun a => ?_⟩
    · rw [encodeBit_nbits_toNat, if_neg hn]
    · rw [encodeBit_counted bit s hn]
    · rw [memRead_encodeBit, if_neg (fun h => hn h.1)]

/-- Settles O23: `-0.0` and `+0.0` have the same scaled sample, an infinity is clamped to what its bound is clamped to. -/
theorem minusZeroAndInfiniteSamples : Obligations.MinusZeroAndInfiniteSamples := by
  intro s hinv
  have hlimit := clampLimit_isFinite s.config
  obtain ⟨hplus, hminus⟩ := clampSample_infinities s.config
  obtain ⟨hmax, hmin⟩ := clampSample_bounds s.config
  refine ⟨exec_sample_congr (by decide) (by decide) fun hphase => sampleBit_congr ?_,
    exec_sample_congr (by decide) (isNaN_eq_false_of_isFinite _ hlimit) fun _ => sampleBit_congr ?_,
    exec_sample_congr (by decide) (isNaN_eq_false_of_isFinite _ (by rwa [isFinite_fneg])) fun _ => sampleBit_congr ?_⟩
  · have hg := hinv.gain_positive (by rw [hphase]; exact nofun)
    rw [scaledSample_of_isZero _ hg (by decide), scaledSample_of_isZero _ hg (by decide)]
  · exact scaledSample_congr _ (hplus.trans hmax.symm)
  · exact scaledSample_congr _ (hminus.trans hmin.symm)

/-! ### Bits and bytes -/

theorem bitsValue_append_singleton (bits : List Bool) (b : Bool) :
    bitsValue (bits ++ [b]) = bitsValue bits + 2 ^ bits.length * b.toNat := by
  induction bits with
  | nil => simp [bitsValue]
  | cons a rest ih =>
    simp only [List.cons_append, bitsValue, ih, List.length_cons, Nat.pow_succ]
    ring

theorem length_decisions (p : Params) (g : Binary32) (n : Nat) (xs : List Binary32) :
    (decisions p g n xs).length = xs.length := by
  induction xs generalizing n with
  | nil => rfl
  | cons x rest ih => simp [decisions, ih]

/-- The bits of the byte that is not complete. -/
def openGroup (bits : List Bool) : List Bool := bits.drop (8 * (bits.length / 8))

theorem length_openGroup (bits : List Bool) : (openGroup bits).length = bits.length % 8 := by
  rw [openGroup, List.length_drop]
  omega

theorem openGroup_of_complete {bits : List Bool} (h : bits.length % 8 = 0) : openGroup bits = [] :=
  List.drop_eq_nil_of_le (by omega)

theorem openGroup_append_singleton {bits : List Bool} (b : Bool) (h : bits.length % 8 ≠ 7) :
    openGroup (bits ++ [b]) = openGroup bits ++ [b] := by
  have hlen : (bits ++ [b]).length / 8 = bits.length / 8 := by
    rw [List.length_append, List.length_singleton]
    omega
  rw [openGroup, hlen, List.drop_append_of_le_length (by omega), openGroup]

/-- Byte `j` of a bit sequence, its first bit least significant (41_sample.md R134). -/
def codedByte (bits : List Bool) (j : Nat) : Byte := BitVec.ofNat 8 (bitsValue ((bits.drop (8 * j)).take 8))

/-- Later bits reach no complete byte. -/
theorem codedByte_append {bits : List Bool} {j : Nat} (more : List Bool) (h : 8 * (j + 1) ≤ bits.length) :
    codedByte (bits ++ more) j = codedByte bits j := by
  rw [codedByte, List.drop_append_of_le_length (by omega), List.take_append_of_le_length (by rw [List.length_drop]; omega),
    codedByte]

theorem codedByte_take {bits : List Bool} {j n : Nat} (hn : 8 * (j + 1) ≤ n) (h : 8 * (j + 1) ≤ bits.length) :
    codedByte (bits.take n) j = codedByte bits j := by
  have happend := codedByte_append (bits := bits.take n) (bits.drop n) (j := j) (by rw [List.length_take]; omega)
  rw [List.take_append_drop] at happend
  exact happend.symm

/-- The eighth bit completes the byte. -/
theorem codedByte_completed {bits : List Bool} (b : Bool) (h : bits.length % 8 = 7) :
    codedByte (bits ++ [b]) (bits.length / 8) = BitVec.ofNat 8 (bitsValue (openGroup bits ++ [b])) := by
  have hlen : (openGroup bits ++ [b]).length ≤ 8 := by
    rw [List.length_append, length_openGroup, List.length_singleton]
    omega
  rw [codedByte, List.drop_append_of_le_length (by omega), ← openGroup, List.take_of_length_le hlen]

/-- A bit packed above `r` earlier ones: all of them move one place down (41_sample.md R130). -/
theorem packed_div (acc b r : Nat) (h : r ≤ 7) :
    (acc / 2 + 128 * b) / 2 ^ (7 - r) = acc / 2 ^ (8 - r) + 2 ^ r * b := by
  have hsplit : 128 * b = 2 ^ (7 - r) * (2 ^ r * b) := by
    rw [← Nat.mul_assoc, ← Nat.pow_add, Nat.sub_add_cancel h]
  have hshift : 2 ^ (8 - r) = 2 * 2 ^ (7 - r) := by
    rw [← Nat.pow_succ', show 8 - r = 7 - r + 1 by omega]
  rw [hsplit, Nat.add_mul_div_left _ _ (Nat.two_pow_pos _), Nat.div_div_eq_div_mul, hshift]

/-! ### What a run of samples leaves in the registers -/

/-- From the byte boundary of `s₀` to `s` the bits `bits` have been encoded: the complete bytes stand at the old length, the bits of
the incomplete one in the top of `ACC`, and the counter has followed the bits. -/
structure EncodedSince (s₀ : State) (bits : List Bool) (s : State) : Prop where
  config : s.config = s₀.config
  phase : s.phase = s₀.phase
  g : s.g = s₀.g
  delta : s.delta.toNat = bits.foldl (fun n b => counterAfter b n) s₀.delta.toNat
  outLen : s.outLen.toNat = s₀.outLen.toNat + bits.length / 8
  nbits : s.nbits.toNat = bits.length % 8
  acc : s.acc.toNat / 2 ^ (8 - bits.length % 8) = bitsValue (openGroup bits)
  out : ∀ a, memRead s.out a
    = if s₀.outLen.toNat ≤ a ∧ a < s.outLen.toNat then some (codedByte bits (a - s₀.outLen.toNat)) else memRead s₀.out a

section
variable {s₀ s t : State} {bits : List Bool}

theorem encodedSince_nil (h : s.nbits = 0) : EncodedSince s [] s where
  config := rfl
  phase := rfl
  g := rfl
  delta := rfl
  outLen := rfl
  nbits := by rw [h]; rfl
  acc := Nat.div_eq_of_lt s.acc.isLt
  out a := by rw [if_neg (by omega)]

theorem EncodedSince.congr_right (h : EncodedSince s₀ bits s) (hsame : SameConversion s t) : EncodedSince s₀ bits t where
  config := hsame.config.trans h.config
  phase := hsame.phase.trans h.phase
  g := hsame.g.trans h.g
  delta := by rw [hsame.delta, h.delta]
  outLen := by rw [hsame.outLen, h.outLen]
  nbits := by rw [hsame.nbits, h.nbits]
  acc := by rw [hsame.acc, h.acc]
  out := by rw [hsame.out, hsame.outLen]; exact h.out

theorem EncodedSince.nbits_eq_seven_iff (h : EncodedSince s₀ bits s) : s.nbits = 7 ↔ bits.length % 8 = 7 := by
  rw [← h.nbits, ← BitVec.toNat_inj]
  rfl

theorem EncodedSince.outLen_encodeBit (h : EncodedSince s₀ bits s)
    (hlt : s.outLen.toNat < s.config.params.maxCapacity) (b : Bool) :
    (encodeBit b s).outLen.toNat = s₀.outLen.toNat + (bits ++ [b]).length / 8 := by
  rw [encodeBit_outLen_toNat b hlt, h.outLen, List.length_append, List.length_singleton]
  simp only [h.nbits_eq_seven_iff]
  split <;> omega

theorem EncodedSince.nbits_encodeBit (h : EncodedSince s₀ bits s) (b : Bool) :
    (encodeBit b s).nbits.toNat = (bits ++ [b]).length % 8 := by
  rw [encodeBit_nbits_toNat, h.nbits, List.length_append, List.length_singleton]
  simp only [h.nbits_eq_seven_iff]
  split <;> omega

/-- The next bit joins the open group in the top of `ACC`. -/
theorem EncodedSince.packed_encodeBit (h : EncodedSince s₀ bits s) (b : Bool) :
    (encodeBit b s).acc.toNat / 2 ^ (7 - bits.length % 8) = bitsValue (openGroup bits ++ [b]) := by
  rw [encodeBit_acc_toNat, packed_div _ _ _ (by omega), h.acc, bitsValue_append_singleton, length_openGroup]

theorem EncodedSince.acc_encodeBit (h : EncodedSince s₀ bits s) (b : Bool) :
    (encodeBit b s).acc.toNat / 2 ^ (8 - (bits ++ [b]).length % 8) = bitsValue (openGroup (bits ++ [b])) := by
  have hlen : (bits ++ [b]).length = bits.length + 1 := by rw [List.length_append, List.length_singleton]
  by_cases h7 : bits.length % 8 = 7
  · have hmod : (bits ++ [b]).length % 8 = 0 := by omega
    rw [hmod, openGroup_of_complete hmod]
    exact Nat.div_eq_of_lt (encodeBit b s).acc.isLt
  · have hplace : 8 - (bits ++ [b]).length % 8 = 7 - bits.length % 8 := by omega
    rw [hplace, openGroup_append_singleton b h7, h.packed_encodeBit]

/-- The eighth bit of a group has made `ACC` the byte of that group. -/
theorem EncodedSince.acc_completed (h : EncodedSince s₀ bits s) (b : Bool) (h7 : bits.length % 8 = 7) :
    (encodeBit b s).acc = codedByte (bits ++ [b]) (bits.length / 8) := by
  have hacc := h.packed_encodeBit b
  rw [h7, Nat.sub_self, Nat.pow_zero, Nat.div_one] at hacc
  rw [codedByte_completed b h7, ← hacc, BitVec.ofNat_toNat, BitVec.setWidth_eq]

theorem EncodedSince.out_encodeBit (h : EncodedSince s₀ bits s) (hlt : s.outLen.toNat < s.config.params.maxCapacity)
    (b : Bool) (a : Nat) :
    memRead (encodeBit b s).out a
      = if s₀.outLen.toNat ≤ a ∧ a < (encodeBit b s).outLen.toNat then some (codedByte (bits ++ [b]) (a - s₀.outLen.toNat))
        else memRead s₀.out a := by
  have hlen : (bits ++ [b]).length = bits.length + 1 := by rw [List.length_append, List.length_singleton]
  rw [memRead_encodeBit, h.out, h.outLen_encodeBit hlt, hlen]
  simp only [h.nbits_eq_seven_iff, h.outLen]
  by_cases hnew : bits.length % 8 = 7 ∧ a = s₀.outLen.toNat + bits.length / 8
  · obtain ⟨h7, rfl⟩ := hnew
    rw [if_pos ⟨h7, rfl⟩, if_pos (by omega), Nat.add_sub_cancel_left, h.acc_completed b h7]
  · rw [if_neg hnew]
    by_cases hold : s₀.outLen.toNat ≤ a ∧ a < s₀.outLen.toNat + bits.length / 8
    · rw [if_pos hold, if_pos (by omega), codedByte_append _ (by omega)]
    · rw [if_neg hold, if_neg (by omega)]

theorem EncodedSince.append_bit (h : EncodedSince s₀ bits s) (hlt : s.outLen.toNat < s.config.params.maxCapacity) (b : Bool) :
    EncodedSince s₀ (bits ++ [b]) (encodeBit b s) where
  config := (encodeBit_config s b).trans h.config
  phase := (encodeBit_phase s b).trans h.phase
  g := (encodeBit_g s b).trans h.g
  delta := by
    rw [encodeBit_delta_toNat, h.delta, List.foldl_append]
    rfl
  outLen := h.outLen_encodeBit hlt b
  nbits := h.nbits_encodeBit b
  acc := h.acc_encodeBit b
  out := h.out_encodeBit hlt b

theorem runCommands_cons_of_next {i : Instr} (rest : List Instr) (h : exec i s = .next t) :
    runCommands (i :: rest) s = runCommands rest t := by
  rw [runCommands, h]

/-- Bits that fit before the capacity fill it or leave room for another one. -/
theorem EncodedSince.full_or_room (h : EncodedSince s₀ bits s)
    (hfit : bits.length ≤ 8 * (s₀.config.params.maxCapacity - s₀.outLen.toNat))
    (hcap : s₀.outLen.toNat ≤ s₀.config.params.maxCapacity) :
    (s.outLen.toNat = s.config.params.maxCapacity ∧ bits.length = 8 * (s₀.config.params.maxCapacity - s₀.outLen.toNat))
    ∨ (s.outLen.toNat < s.config.params.maxCapacity
        ∧ bits.length < 8 * (s₀.config.params.maxCapacity - s₀.outLen.toNat)) := by
  rw [h.outLen, h.config]
  omega

/-- A run of samples encodes the decisions on those that are no NaN, until the capacity is reached. -/
theorem EncodedSince.run_samples (hphase : s₀.phase = .encoding) (hcap : s₀.outLen.toNat ≤ s₀.config.params.maxCapacity)
    (xs : List Binary32) (h : EncodedSince s₀ bits s)
    (hfit : bits.length ≤ 8 * (s₀.config.params.maxCapacity - s₀.outLen.toNat)) :
    ∃ t, runCommands (samples xs) s = .next t
      ∧ EncodedSince s₀
          ((bits ++ decisions s₀.config.params s₀.g s.delta.toNat (xs.filter fun x => !isNaN x)).take
            (8 * (s₀.config.params.maxCapacity - s₀.outLen.toNat))) t := by
  induction xs generalizing s bits with
  | nil =>
    refine ⟨s, rfl, ?_⟩
    rwa [List.filter_nil, decisions, List.append_nil, List.take_of_length_le hfit]
  | cons x rest ih =>
    have hs := h.phase.trans hphase
    rcases h.full_or_room hfit hcap with ⟨hfull, hlen⟩ | ⟨hlt, hlen⟩
    · obtain ⟨t, hrun, ht⟩ := ih h hfit
      refine ⟨t, (runCommands_cons_of_next _ (exec_sample_of_full x hs hfull)).trans hrun, ?_⟩
      rwa [List.take_left' hlen] at ht ⊢
    · cases hnan : isNaN x with
      | true =>
        obtain ⟨t, hrun, ht⟩ := ih (h.congr_right (sameConversion_raise .domain s)) hfit
        refine ⟨t, (runCommands_cons_of_next _ (exec_sample_of_isNaN hs hlt hnan)).trans hrun, ?_⟩
        rw [raise_delta] at ht
        simpa [hnan] using ht
      | false =>
        obtain ⟨t, hrun, ht⟩ := ih (h.append_bit hlt (sampleBit x s)) (by simpa using hlen)
        refine ⟨t, (runCommands_cons_of_next _ (exec_sample_of_accepted hs hlt hnan)).trans hrun, ?_⟩
        rw [encodeBit_delta_toNat, List.append_assoc, sampleBit, h.config, h.g] at ht
        rw [List.filter_cons_of_pos (by rw [hnan]; rfl)]
        exact ht

/-- The same from a byte boundary on. -/
theorem encodedSince_samples (hphase : s.phase = .encoding) (hcap : s.outLen.toNat ≤ s.config.params.maxCapacity)
    (hnbits : s.nbits = 0) (xs : List Binary32) :
    ∃ t, runCommands (samples xs) s = .next t
      ∧ EncodedSince s
          ((decisions s.config.params s.g s.delta.toNat (xs.filter fun x => !isNaN x)).take
            (8 * (s.config.params.maxCapacity - s.outLen.toNat))) t :=
  (encodedSince_nil hnbits).run_samples hphase hcap xs (Nat.zero_le _)

end

theorem exec_finish_of_encoding {s : State} (h : s.phase = .encoding) :
    exec .finish s = .next { alignLength s with phase := .done } :=
  congrArg Host.Outcome.next (if_neg (not_not_intro h))

/-- Length alignment of an output that ends at its length. -/
theorem memRead_alignLength_of_unwritten {s : State} {a : Nat} (h : ¬ a < s.outLen.toNat → memRead s.out a = none) :
    memRead (alignLength s).out a
      = if a < s.outLen.toNat then memRead s.out a else if a < (alignLength s).outLen.toNat then some fillByte else none := by
  rw [memRead_alignLength]
  by_cases ha : a < s.outLen.toNat
  · rw [if_neg (by omega), if_pos ha]
  · rw [if_neg ha, h ha]
    exact if_congr (and_iff_right (Nat.le_of_not_lt ha)) rfl rfl

/-- Settles O26: START leaves a byte boundary with nothing written, and the samples encode their decisions up to the capacity. -/
theorem codedBytesHoldTheDecisions : Obligations.CodedBytesHoldTheDecisions := by
  intro gainDb xs s hacc ys bits
  have hbits : bits.length = ys.length := length_decisions _ _ _ _
  obtain ⟨t, hrun, ht⟩ := encodedSince_samples (s := beginConversion gainDb s) rfl (Nat.zero_le _) rfl xs
  replace ht : EncodedSince (beginConversion gainDb s) (bits.take (8 * s.config.params.maxCapacity)) t := ht
  have hphase : t.phase = .encoding := ht.phase
  have hlen : t.outLen.toNat = (bits.take (8 * s.config.params.maxCapacity)).length / 8 :=
    ht.outLen.trans (Nat.zero_add _)
  have hnbits := ht.nbits
  rw [List.length_take, hbits] at hlen hnbits
  have hout (j : Nat) : memRead t.out j = if j < t.outLen.toNat then some (codedByte bits j) else none := by
    rw [ht.out]
    by_cases hj : j < t.outLen.toNat
    · rw [if_pos ⟨Nat.zero_le _, hj⟩, if_pos hj]
      exact congrArg some (codedByte_take (by omega) (by omega))
    · rw [if_neg (fun h => hj h.2), if_neg hj]
      rfl
  refine ⟨t, _, (runCommands_cons_of_next _ (exec_start_of_accepted hacc)).trans hrun, exec_finish_of_encoding hphase, hphase,
    by omega, fun hlt => ?_, fun hfull => ?_, hout,
    fun j => memRead_alignLength_of_unwritten fun hj => (hout j).trans (if_neg hj)⟩
  · have hall : bits.take (8 * s.config.params.maxCapacity) = bits := List.take_of_length_le (by omega)
    have hpartial := ht.acc
    rw [hall, hbits] at hpartial
    have hmod : t.nbits.toNat = ys.length % 8 := by omega
    refine ⟨hmod, ?_⟩
    rw [hmod, hpartial, openGroup]
    congr 2
    omega
  · apply BitVec.eq_of_toNat_eq
    rw [hnbits]
    change _ = 0
    omega

/-! ### Constant input -/

theorem encodeBit_acc_top (bit : Bool) (s : State) : (encodeBit bit s).acc.getLsbD 7 = bit := by
  rw [encodeBit_acc]
  cases bit <;> simp [packBit]

/-- The decision on a sample at an integer level (41_sample.md R127). -/
theorem sampleBit_of_level {x : Binary32} {s : State} {n : Nat} (hn : n < 64)
    (hlevel : scaledSample s.config.params s.g x = floatOfNat n) : sampleBit x s = decide (s.delta.toNat ≤ n) := by
  rw [sampleBit, decisionBit, hlevel, fge_floatOfNat hn s.delta.isLt]

/-- Two samples at the counter's level decide 1 and 0 and bring the counter back. -/
theorem decisions_pair_of_level {p : Params} {g x : Binary32} {n : Nat} (rest : List Binary32) (hn : n ≤ 62)
    (hlevel : scaledSample p g x = floatOfNat n) :
    decisions p g n (x :: x :: rest) = true :: false :: decisions p g n rest := by
  have hfirst : decisions p g n (x :: x :: rest)
      = fge (scaledSample p g x) (floatOfNat n)
        :: decisions p g (counterAfter (fge (scaledSample p g x) (floatOfNat n)) n) (x :: rest) := rfl
  have hsecond : decisions p g (n + 1) (x :: rest)
      = fge (scaledSample p g x) (floatOfNat (n + 1))
        :: decisions p g (counterAfter (fge (scaledSample p g x) (floatOfNat (n + 1))) (n + 1)) rest := rfl
  have hup : counterAfter true n = n + 1 := by simp [counterAfter, show n ≠ 63 by omega]
  have hdown : counterAfter false (n + 1) = n := rfl
  rw [hfirst, hlevel, fge_floatOfNat (by omega) (by omega), decide_eq_true le_rfl, hup, hsecond, hlevel,
    fge_floatOfNat (by omega) (by omega), decide_eq_false (by omega), hdown]

/-- 41_sample.md R137, its first sentences: the bits alternate below 63 and stay 1 at 63. -/
theorem constantLevel_alternates {x : Binary32} {s : State} {n : Nat} (hphase : s.phase = .encoding)
    (hlt : s.outLen.toNat < s.config.params.maxCapacity) (hnan : isNaN x = false)
    (hlevel : scaledSample s.config.params s.g x = floatOfNat n) (hdelta : s.delta.toNat = n) :
    ∃ t : State, exec (.sample x) s = .next t ∧ t.acc.getLsbD 7 = true
      ∧ (n = 63 → t.delta.toNat = 63)
      ∧ (n ≤ 62 → t.delta.toNat = n + 1
          ∧ (t.outLen.toNat < t.config.params.maxCapacity →
              ∃ u : State, exec (.sample x) t = .next u ∧ u.acc.getLsbD 7 = false ∧ u.delta.toNat = n)) := by
  have hn : n < 64 := hdelta ▸ s.delta.isLt
  have hbit : sampleBit x s = true := by rw [sampleBit_of_level hn hlevel, hdelta, decide_eq_true le_rfl]
  have hexec := exec_sample_of_accepted hphase hlt hnan
  have hcounter := encodeBit_delta_toNat true s
  rw [encodeSample, hbit] at hexec
  rw [hdelta, counterAfter, if_pos rfl] at hcounter
  refine ⟨_, hexec, encodeBit_acc_top true s, fun h63 => hcounter.trans (if_pos h63), fun h62 => ?_⟩
  rw [if_neg (by omega)] at hcounter
  refine ⟨hcounter, fun hroom => ?_⟩
  have hlevel' : scaledSample (encodeBit true s).config.params (encodeBit true s).g x = floatOfNat n := by
    rw [encodeBit_config, encodeBit_g, hlevel]
  have hbit' : sampleBit x (encodeBit true s) = false := by
    rw [sampleBit_of_level hn hlevel', hcounter, decide_eq_false (by omega)]
  have hexec' := exec_sample_of_accepted ((encodeBit_phase s true).trans hphase) hroom hnan
  rw [encodeSample, hbit'] at hexec'
  refine ⟨_, hexec', encodeBit_acc_top false _, ?_⟩
  rw [encodeBit_delta_toNat, hcounter]
  rfl

/-- 41_sample.md R137, its last sentence: silence makes the byte 0x55 at any gain. -/
theorem silence_makes_0x55 {s : State} (hphase : s.phase = .encoding)
    (hlt : s.outLen.toNat < s.config.params.maxCapacity) (hg : positiveFinite s.g = true) (hdelta : s.delta = 32)
    (hnbits : s.nbits = 0) :
    ∃ t : State, runCommands (samples (List.replicate 8 0x00000000)) s = .next t
      ∧ memRead t.out s.outLen.toNat = some 0x55 ∧ t.outLen.toNat = s.outLen.toNat + 1 ∧ t.delta = 32 ∧ t.nbits = 0 := by
  have hlevel : scaledSample s.config.params s.g 0x00000000 = floatOfNat 32 := by
    rw [scaledSample_of_isZero s.config hg (by decide)]
    decide
  have hpair := fun rest => decisions_pair_of_level rest (by decide) hlevel
  have hzeros : ((List.replicate 8 (0x00000000 : Binary32)).filter fun x => !isNaN x) = [0, 0, 0, 0, 0, 0, 0, 0] := by decide
  have hsilence : decisions s.config.params s.g s.delta.toNat ((List.replicate 8 0x00000000).filter fun x => !isNaN x)
      = [true, false, true, false, true, false, true, false] := by
    rw [hzeros, hdelta]
    change decisions s.config.params s.g 32 _ = _
    rw [hpair, hpair, hpair, hpair, decisions]
  obtain ⟨t, hrun, ht⟩ := encodedSince_samples hphase hlt.le hnbits (List.replicate 8 0x00000000)
  rw [hsilence, List.take_of_length_le (by simp; omega)] at ht
  have houtLen : t.outLen.toNat = s.outLen.toNat + 1 := ht.outLen
  refine ⟨t, hrun, ?_, houtLen, BitVec.eq_of_toNat_eq ?_, BitVec.eq_of_toNat_eq ht.nbits⟩
  · rw [ht.out, if_pos (by omega), Nat.sub_self]
    rfl
  · rw [ht.delta, hdelta]
    rfl

/-- Settles O24, by its two halves. -/
theorem constantInputAlternates : Obligations.ConstantInputAlternates :=
  ⟨fun _ _ _ hphase hlt hnan hlevel hdelta => constantLevel_alternates hphase hlt hnan hlevel hdelta,
    fun _ hphase hlt hg hdelta hnbits => silence_makes_0x55 hphase hlt hg hdelta hnbits⟩

/-! ### Earlier bits -/

section
variable {s : State}

/-- Where the open groups agree and the bit does not complete them, the accumulators' other bits stay the only difference. -/
theorem encodeBit_withAcc_of_counted (bit : Bool) (a : Byte) (h : s.nbits ≠ 7) :
    encodeBit bit { s with acc := a } = { encodeBit bit s with acc := packBit bit a } := by
  rw [encodeBit_counted bit { s with acc := a } h, encodeBit_counted bit s h]

/-- The eighth bit shifts the last of the earlier bits out. -/
theorem encodeBit_withAcc_of_eighth (bit : Bool) {a : Byte} (h : s.nbits = 7) (hacc : a.toNat / 2 = s.acc.toNat / 2) :
    encodeBit bit { s with acc := a } = encodeBit bit s := by
  have hpack : packBit bit a = packBit bit s.acc :=
    BitVec.eq_of_toNat_eq (by rw [packBit_toNat, packBit_toNat, hacc])
  rw [encodeBit_eighth bit { s with acc := a } h, encodeBit_eighth bit s h, hpack]

/-- 41_sample.md R133: when a run completes the open group, of `ACC` only that group's bits have reached the state after it. -/
theorem runCommands_samples_withAcc (xs : List Binary32) (a : Byte) (hphase : s.phase = .encoding)
    (hlt : s.outLen.toNat < s.config.params.maxCapacity)
    (hgroup : 8 ≤ s.nbits.toNat + (xs.filter fun x => !isNaN x).length)
    (hacc : a.toNat / 2 ^ (8 - s.nbits.toNat) = s.acc.toNat / 2 ^ (8 - s.nbits.toNat)) :
    runCommands (samples xs) { s with acc := a } = runCommands (samples xs) s := by
  induction xs generalizing s a with
  | nil =>
    have := s.nbits.isLt
    rw [List.filter_nil, List.length_nil] at hgroup
    omega
  | cons x rest ih =>
    cases hnan : isNaN x with
    | true =>
      have hrest : (List.filter (fun x => !isNaN x) (x :: rest)).length = (rest.filter fun x => !isNaN x).length := by
        simp [hnan]
      rw [hrest] at hgroup
      exact (runCommands_cons_of_next _ (exec_sample_of_isNaN (s := { s with acc := a }) hphase hlt hnan)).trans
        ((ih (s := raise .domain s) a hphase hlt hgroup hacc).trans
          (runCommands_cons_of_next _ (exec_sample_of_isNaN hphase hlt hnan)).symm)
    | false =>
      have hrest : (List.filter (fun x => !isNaN x) (x :: rest)).length = (rest.filter fun x => !isNaN x).length + 1 := by
        simp [hnan]
      rw [hrest] at hgroup
      have hnext := runCommands_cons_of_next (samples rest) (exec_sample_of_accepted hphase hlt hnan)
      have hnext' := runCommands_cons_of_next (samples rest)
        (exec_sample_of_accepted (s := { s with acc := a }) hphase hlt hnan)
      refine hnext'.trans (Eq.trans ?_ hnext.symm)
      change runCommands (samples rest) (encodeBit (sampleBit x s) { s with acc := a })
        = runCommands (samples rest) (encodeBit (sampleBit x s) s)
      by_cases h7 : s.nbits = 7
      · rw [h7] at hacc
        rw [encodeBit_withAcc_of_eighth _ h7 hacc]
      · have hcount := encodeBit_nbits_toNat (sampleBit x s) s
        have hlen := encodeBit_outLen_toNat (sampleBit x s) hlt
        rw [if_neg h7] at hcount hlen
        rw [encodeBit_withAcc_of_counted _ a h7]
        have hle : s.nbits.toNat ≤ 7 := Nat.le_of_lt_succ s.nbits.isLt
        refine ih _ ((encodeBit_phase _ _).trans hphase) (by rwa [hlen, encodeBit_config]) (by omega) ?_
        rw [hcount, encodeBit_acc_toNat, packBit_toNat, Nat.succ_sub_succ, packed_div _ _ _ hle, packed_div _ _ _ hle, hacc]

end

/-- Settles O25: at a byte boundary the open group is empty, so nothing of `ACC` reaches the state after eight bits. -/
theorem earlierBitsReachNoLaterByte : Obligations.EarlierBitsReachNoLaterByte := by
  intro xs a s hphase hlt hnbits hcount
  obtain ⟨t, hrun, ht⟩ := encodedSince_samples hphase hlt.le hnbits xs
  have hsame := runCommands_samples_withAcc xs a hphase hlt (by omega)
    (by rw [hnbits]; exact (Nat.div_eq_of_lt a.isLt).trans (Nat.div_eq_of_lt s.acc.isLt).symm)
  refine ⟨t, hrun, hsame.trans hrun, ?_⟩
  rw [ht.outLen, List.length_take, length_decisions, hcount]
  omega

end Sys2Proof.Machine
end

section
/-! PROOFS. The family 42_finish.md: FINISH pads to the closed form of R164 and ends in DONE, and with R135 this gives the length of
a whole conversion (R166, R167). -/

namespace Sys2Proof.Machine

section
variable {s t : State}

/-! ### Length alignment -/

/-- 42_finish.md R164, the number of filler bytes in its own terms. -/
theorem fillerCount_eq (n : Nat) : (17 - n % 16) % 16 = ((1 - (n : Int)) % 16).toNat := by omega

theorem alignLength_outLen_closedForm (s : State) :
    (alignLength s).outLen.toNat
      = if s.config.params.maxCapacity ≤ s.outLen.toNat then s.outLen.toNat
        else min s.config.params.maxCapacity (s.outLen.toNat + ((1 - (s.outLen.toNat : Int)) % 16).toNat) := by
  rw [alignLength_outLen_toNat, fillerCount_eq]

/-- At a length of at most the capacity the two cases of R164 are one, as R167 writes it. -/
theorem alignLength_outLen_of_le (h : s.outLen.toNat ≤ s.config.params.maxCapacity) :
    (alignLength s).outLen.toNat
      = min s.config.params.maxCapacity (s.outLen.toNat + ((1 - (s.outLen.toNat : Int)) % 16).toNat) := by
  rw [alignLength_outLen_closedForm]
  split <;> omega

/-- "The number of filler bytes is between 0 and 15" (42_finish.md R164). -/
theorem alignLength_outLen_le (s : State) : (alignLength s).outLen.toNat ≤ s.outLen.toNat + 15 := by
  rw [alignLength_outLen_closedForm]
  split <;> omega

theorem padFiller_of_aligned (fuel : Nat) (h : s.outLen.toNat % 16 = 1) : padFiller fuel s = s := by
  cases fuel with
  | zero => rfl
  | succ fuel => exact if_neg fun hround => hround.2 h

/-- 42_finish.md R166: from length 0 one round reaches the residue. -/
theorem alignLength_of_outLen_zero (hlen : s.outLen = 0) (hcap : 1 ≤ s.config.params.maxCapacity) :
    alignLength s = append fillByte s := by
  have hzero : s.outLen.toNat = 0 := congrArg BitVec.toNat hlen
  have hround : s.outLen.toNat < s.config.params.maxCapacity ∧ s.outLen.toNat % alignModulus ≠ alignResidue := by
    rw [hzero]
    exact ⟨hcap, by decide⟩
  have haligned : (append fillByte s).outLen.toNat % 16 = 1 := by
    rw [append_outLen_toNat _ _ hround.1, hzero]
  exact (if_pos hround).trans (padFiller_of_aligned 14 haligned)

/-! ### Runs of commands -/

/-- A run that completes has completed its first command. -/
theorem exists_of_runCommands_cons {i : Instr} {rest : List Instr} (h : runCommands (i :: rest) s = .next t) :
    ∃ u, exec i s = .next u ∧ runCommands rest u = .next t := by
  rw [runCommands] at h
  split at h
  · next u hexec => exact ⟨u, hexec, h⟩
  · cases h
  · cases h

theorem runCommands_append_of_next {is : List Instr} (js : List Instr) (h : runCommands is s = .next t) :
    runCommands (is ++ js) s = runCommands js t := by
  induction is generalizing s with
  | nil =>
    cases h
    rfl
  | cons i rest ih =>
    obtain ⟨u, hexec, hrest⟩ := exists_of_runCommands_cons h
    exact (runCommands_cons_of_next _ hexec).trans (ih hrest)

theorem runCommands_config {is : List Instr} (h : runCommands is s = .next t) : t.config = s.config := by
  induction is generalizing s with
  | nil =>
    cases h
    rfl
  | cons i rest ih =>
    obtain ⟨u, hexec, hrest⟩ := exists_of_runCommands_cons h
    exact (ih hrest).trans (exec_config hexec)

/-- An output buffer with every byte UNWRITTEN is the empty one. -/
theorem eq_nil_of_memRead_eq_none {m : Memory} (h : ∀ a, memRead m a = none) : m = [] := by
  cases m with
  | nil => rfl
  | cons c rest =>
    have hhead := h c.1
    rw [memRead_cons, if_pos rfl] at hhead
    cases hhead

end

/-- Settles O28, by the closed form of the length and the reads after length alignment. -/
theorem finishPadsToTheClosedForm : Obligations.FinishPadsToTheClosedForm := by
  intro s hphase
  refine ⟨_, exec_finish_of_encoding hphase, alignLength_outLen_closedForm s, (growsOutput_finish s).length_le,
    alignLength_outLen_le s, fun i hlow hhigh => ?_, (growsOutput_finish s).unchanged, ?_⟩
  · exact (memRead_alignLength s i).trans (if_pos ⟨hlow, hhigh⟩)
  · exact congrArg (fun u : State => { u with phase := .done }) (padFiller_frame 15 s)

/-- Settles O29: (I-c) bounds the length that alignment starts from. -/
theorem finishedLengthIsAligned : Obligations.FinishedLengthIsAligned := by
  intro s hinv hphase
  refine ⟨_, exec_finish_of_encoding hphase, alignLength_aligned hinv.length_bound, fun haligned => ?_⟩
  rw [lengthField]
  omega

/-- Settles O30: the samples leave the length of R135 with nothing written past it, and FINISH aligns that length. -/
theorem wholeConversionLength : Obligations.WholeConversionLength := by
  intro gainDb xs s hacc cap n0
  obtain ⟨t, -, hrun, -, hphase, hlen, -, -, hout, -⟩ := codedBytesHoldTheDecisions gainDb xs s hacc
  have hn0 : t.outLen.toNat = n0 := hlen
  have hcap : t.config.params.maxCapacity = cap := by rw [runCommands_config hrun]
  have hfinal := alignLength_outLen_of_le (s := t) (by omega)
  rw [hn0, hcap] at hfinal
  refine ⟨_, (runCommands_append_of_next _ hrun).trans (runCommands_cons_of_next [] (exec_finish_of_encoding hphase)), rfl,
    hfinal, fun hempty hroom => ?_, ?_⟩
  · have hzero : t.outLen = 0 := BitVec.eq_of_toNat_eq (hn0.trans hempty)
    have hnil : t.out = [] := eq_nil_of_memRead_eq_none fun a => (hout a).trans (if_neg (by omega))
    rw [alignLength_of_outLen_zero hzero (by omega)]
    exact ⟨congrArg (· + 1) hzero, by rw [append_out, hzero, hnil]; rfl⟩
  · rw [← BitVec.toNat_inj, hfinal]
    change _ = 0 ↔ _
    omega

/-- Settles O27. -/
theorem finishIsAcceptedOnlyWhileEncoding : Obligations.FinishIsAcceptedOnlyWhileEncoding :=
  fun _ => ⟨exec_finish_of_not_encoding, fun hphase => ⟨_, exec_finish_of_encoding hphase, rfl⟩⟩

end Sys2Proof.Machine
end

section
/-! PROOFS. The family 43_readout.md: what each read answers (R180, R181, R183) and the numbers that the status word and the debug
word are (R184, R185). -/

namespace Sys2Proof.Machine

/-! ### The response words as numbers -/

theorem toNat_append_eq_add {n m : Nat} (x : BitVec n) (y : BitVec m) : (x ++ y).toNat = 2 ^ m * x.toNat + y.toNat := by
  rw [BitVec.toNat_append, ← Nat.shiftLeft_add_eq_or_of_lt y.isLt, Nat.shiftLeft_eq, Nat.mul_comm]

theorem statusWord_toNat (s : State) :
    (statusWord s).toNat = (phaseCode s.phase).toNat + 4 * (isFull s).toNat + 8 * (inReady s).toNat
      + 16 * s.errIllegal.toNat + 32 * s.errProtocol.toNat + 64 * s.errDomain.toNat + 128 * s.errRange.toNat := by
  rw [statusWord, BitVec.toNat_setWidth_of_le (by decide)]
  simp only [toNat_append_eq_add, BitVec.toNat_ofBool]
  omega

theorem debugWord_toNat (s : State) :
    (debugWord s).toNat = s.acc.toNat + 2 ^ 8 * s.delta.toNat + 2 ^ 16 * s.nbits.toNat := by
  rw [debugWord, BitVec.toNat_setWidth_of_le (by decide)]
  simp only [toNat_append_eq_add, BitVec.toNat_ofNat]
  omega

/-! ### The reads that answer in every state -/

theorem exec_rdlen (s : State) : exec .rdlen s = .next (respond s.outLen s) := rfl

theorem exec_rdstat (s : State) : exec .rdstat s = .next (respond (statusWord s) s) := rfl

theorem exec_rddbg (s : State) : exec .rddbg s = .next (respond (debugWord s) s) := rfl

/-! ### The statements -/

/-- Settles O35: the status word is the sum of its bits, and FULL and IN_READY are the derived signals of R27. -/
theorem rdstatRespondsTheStatusWord : Obligations.RdstatRespondsTheStatusWord := by
  intro s full ready phase
  have hphase : (phaseCode s.phase).toNat = phase := by
    cases h : s.phase <;> simp [phase, h, phaseCode]
  have hfull : isFull s = full := rfl
  have hready : inReady s = ready := rfl
  exact ⟨statusWord s, exec_rdstat s, by rw [statusWord_toNat, hphase, hfull, hready]⟩

/-- Settles O36: the debug word is the sum of its fields. -/
theorem rddbgRespondsTheDeltaState : Obligations.RddbgRespondsTheDeltaState :=
  fun s => ⟨debugWord s, exec_rddbg s, debugWord_toNat s⟩

/-- Settles O31: by (I-d) the byte below the length is written. -/
theorem rdbyteBelowTheLengthReadsTheByte : Obligations.RdbyteBelowTheLengthReadsTheByte := by
  intro index s hinv hlt
  obtain ⟨b, hread⟩ := Option.isSome_iff_exists.1 ((hinv.written_iff index.toNat).2 hlt)
  exact ⟨b, hread, exec_rdbyte_of_written (BitVec.not_le.2 (BitVec.lt_def.2 hlt)) hread⟩

/-- Settles O32: no length is above 0xFFFFFFFF, so that index is out of range in every state. -/
theorem rdbyteAtOrAboveTheLengthRaises : Obligations.RdbyteAtOrAboveTheLengthRaises := by
  intro index s h
  rcases h with hle | rfl
  · exact exec_rdbyte_of_le (BitVec.le_def.2 hle)
  · exact exec_rdbyte_of_le (BitVec.le_def.2 (Nat.le_of_lt_succ s.outLen.isLt))

/-- Settles O34. -/
theorem rdlenRespondsTheLength : Obligations.RdlenRespondsTheLength := exec_rdlen

end Sys2Proof.Machine
end

section
/-! PROOFS. The family 60_exceptions.md: what a command can do to the flags (R201, R203, R205), that no command does otherwise for a
set flag (R202), and the steps without a command (R210). -/

namespace Sys2Proof.Machine

/-! ### The steps without a command -/

/-- Settles O40: the two clauses are the equations of `step` for no input and for a response taken. -/
theorem idleBlockHoldsItsState : Obligations.IdleBlockHoldsItsState :=
  ⟨fun _ => step_of_nil, fun _ _ => step_of_takeResponse⟩

/-! ### The flags a command raises -/

section
variable {s t : State}

@[simp] theorem errFlag_encodeBit (bit : Bool) (e : ErrFlag) : errFlag (encodeBit bit s) e = errFlag s e := by
  cases e <;> simp [errFlag]

theorem errFlag_finish (e : ErrFlag) : errFlag { alignLength s with phase := .done } e = errFlag s e := by
  cases e <;> simp [errFlag]

@[simp] theorem errFlag_respond (v : Response) (e : ErrFlag) : errFlag (respond v s) e = errFlag s e := by
  cases e <;> rfl

@[simp] theorem errFlag_beginConversion (gainDb : Binary32) (e : ErrFlag) : errFlag (beginConversion gainDb s) e = errFlag s e := by
  cases e <;> rfl

@[simp] theorem errFlag_respondAny (e : ErrFlag) : errFlag (respondAny s) e = errFlag s e := by
  cases e <;> rfl

@[simp] theorem errFlag_takeResponse (e : ErrFlag) : errFlag (takeResponse s) e = errFlag s e := by
  cases e <;> rfl

/-- What the host does next is no flag. -/
theorem errFlag_withInputs (rest : List HostInput) (e : ErrFlag) : errFlag { s with inputs := rest } e = errFlag s e := by
  cases e <;> rfl

/-- 60_exceptions.md R201, R205: a command keeps the flags, or raises one flag and does nothing else, but that RDBYTE out of range
responds. -/
theorem exec_errFlag_cases {i : Instr} (h : exec i s = .next t) :
    (∀ e, errFlag t e = errFlag s e)
    ∨ (∃ e, e ≠ .range ∧ t = raise e s)
    ∨ (∃ index, i = .rdbyte index ∧ t = respondAny (raise .range s)) := by
  rcases exec_next_cases h with ⟨_, _, _, rfl⟩ | ⟨_, _, _, rfl⟩ | ⟨_, _, _, rfl⟩ | ⟨_, _, _, _, rfl⟩
    | ⟨_, _, _, _, _, rfl⟩ | ⟨_, _, _, _, _, rfl⟩ | ⟨_, _, rfl⟩ | ⟨_, _, rfl⟩ | ⟨index, hi, _, rfl⟩ | ⟨_, _, _, _, _, rfl⟩
    | ⟨_, rfl⟩ | ⟨_, rfl⟩ | ⟨_, rfl⟩ | ⟨_, _, rfl⟩
  · exact .inl (errFlag_beginConversion _)
  · exact .inr (.inl ⟨.domain, nofun, rfl⟩)
  · exact .inr (.inl ⟨.protocol, nofun, rfl⟩)
  · exact .inl fun _ => rfl
  · exact .inr (.inl ⟨.domain, nofun, rfl⟩)
  · exact .inl (errFlag_encodeBit _)
  · exact .inr (.inl ⟨.protocol, nofun, rfl⟩)
  · exact .inl errFlag_finish
  · exact .inr (.inr ⟨index, hi, rfl⟩)
  · exact .inl (errFlag_respond _)
  · exact .inl (errFlag_respond _)
  · exact .inl (errFlag_respond _)
  · exact .inl (errFlag_respond _)
  · exact .inr (.inl ⟨.illegal, nofun, rfl⟩)

/-- 60_exceptions.md R203: no command clears a flag. -/
theorem exec_keeps_errFlag {i : Instr} {e : ErrFlag} (h : exec i s = .next t) (hset : errFlag s e = true) :
    errFlag t e = true := by
  rcases exec_errFlag_cases h with hsame | ⟨_, _, rfl⟩ | ⟨_, _, rfl⟩
  · rw [hsame, hset]
  · rw [errFlag_raise, hset, Bool.true_or]
  · rw [errFlag_respondAny, errFlag_raise, hset, Bool.true_or]

/-- Where `raise` sets a flag that was clear, that is the flag it raises. -/
theorem eq_of_errFlag_raise {e e' : ErrFlag} (hclear : errFlag s e' = false) (hset : errFlag (raise e s) e' = true) : e' = e := by
  rw [errFlag_raise, hclear, Bool.false_or, decide_eq_true_iff] at hset
  exact hset.symm

theorem errFlag_raise_cases {e e' : ErrFlag} (hset : errFlag (raise e s) e' = true) : errFlag s e' = true ∨ e' = e := by
  cases hold : errFlag s e' with
  | true => exact .inl rfl
  | false => exact .inr (eq_of_errFlag_raise hold hset)

end

/-- Settles O47: a step without a command keeps the flags, unless it is RESET, and no command clears one. -/
theorem flagsAreStickyUntilReset : Obligations.FlagsAreStickyUntilReset := by
  intro s t e hset h
  rcases step_next_cases h with ⟨-, rfl⟩ | ⟨rest, hin, -⟩ | ⟨rest, -, -, rfl⟩ | ⟨w, rest, -, -, hexec⟩
  · exact .inl hset
  · exact .inr ⟨rest, hin⟩
  · rw [errFlag_takeResponse, errFlag_withInputs]
    exact .inl hset
  · exact .inl (exec_keeps_errFlag hexec ((errFlag_withInputs rest e).trans hset))

/-- Settles O48: a flag that is newly set is the one flag the command raised. -/
theorem errorsArePreciseAndSingle : Obligations.ErrorsArePreciseAndSingle := by
  intro i s t e h hclear hset
  rcases exec_errFlag_cases h with hsame | ⟨e₀, hne, rfl⟩ | ⟨index, hi, rfl⟩
  · rw [hsame, hclear] at hset
    cases hset
  · obtain rfl := eq_of_errFlag_raise hclear hset
    exact ⟨fun e' => errFlag_raise_cases, .inl ⟨hne, rfl⟩⟩
  · rw [errFlag_respondAny] at hset
    obtain rfl := eq_of_errFlag_raise hclear hset
    refine ⟨fun e' hset' => ?_, .inr ⟨rfl, ⟨index, hi⟩, Config.freeResponse s.draws, rfl⟩⟩
    rw [errFlag_respondAny] at hset'
    exact errFlag_raise_cases hset'

/-! ### Commands with other flags set -/

/-- The state with the four flags given. -/
def withFlags (illegal protocol domain range : Bool) (s : State) : State :=
  { s with errIllegal := illegal, errProtocol := protocol, errDomain := domain, errRange := range }

section
variable {s t : State} (a b c d : Bool)

theorem withoutFlags_withFlags : withoutFlags (withFlags a b c d s) = withoutFlags s := rfl

theorem withoutFlags_raise (e : ErrFlag) (s : State) : withoutFlags (raise e s) = withoutFlags s := by
  cases e <;> rfl

/-- Raising a flag differs from raising it with others set in the flags alone. -/
theorem withoutFlags_raise_withFlags (e : ErrFlag) :
    withoutFlags (raise e (withFlags a b c d s)) = withoutFlags (raise e s) := by
  rw [withoutFlags_raise, withoutFlags_raise, withoutFlags_withFlags]

theorem encodeBit_withFlags (bit : Bool) : encodeBit bit (withFlags a b c d s) = withFlags a b c d (encodeBit bit s) := by
  by_cases h7 : s.nbits = 7
  · rw [encodeBit_eighth bit s h7, encodeBit_eighth bit (withFlags a b c d s) h7]
    rfl
  · rw [encodeBit_counted bit s h7, encodeBit_counted bit (withFlags a b c d s) h7]
    rfl

theorem encodeSample_withFlags (x : Binary32) :
    encodeSample x (withFlags a b c d s) = withFlags a b c d (encodeSample x s) :=
  encodeBit_withFlags a b c d (sampleBit x s)

/-- The loop's test reads the length and the capacity alone, so the rounds are the same. -/
theorem padFiller_withFlags (fuel : Nat) (s : State) :
    padFiller fuel (withFlags a b c d s) = withFlags a b c d (padFiller fuel s) := by
  induction fuel generalizing s with
  | zero => rfl
  | succ fuel ih =>
    unfold padFiller
    exact (ite_congr rfl (fun _ => ih (append fillByte s)) fun _ => rfl).trans (apply_ite (withFlags a b c d) _ _ _).symm

theorem alignLength_withFlags : alignLength (withFlags a b c d s) = withFlags a b c d (alignLength s) :=
  padFiller_withFlags a b c d _ s

/-- While the buffer is not full, SAMPLE asks only whether its operand is a NaN (41_sample.md R120). -/
theorem exec_sample_of_not_full (x : Binary32) (hphase : s.phase = .encoding) (hfull : isFull s = false) :
    exec (.sample x) s = .next (if isNaN x then raise .domain s else encodeSample x s) := by
  simp [exec, execSample, hphase, hfull]

/-- 60_exceptions.md R202: the guards of a command do not read the flags, and its effect carries them along. -/
theorem exec_withFlags {i : Instr} (hi : i ≠ .rdstat) (h : exec i s = .next t) :
    ∃ u, exec i (withFlags a b c d s) = .next u ∧ withoutFlags u = withoutFlags t := by
  rcases exec_next_cases h with ⟨gainDb, rfl, hacc, rfl⟩ | ⟨gainDb, rfl, hacc, rfl⟩ | ⟨x, rfl, hphase, rfl⟩
    | ⟨x, rfl, hphase, hfull, rfl⟩ | ⟨x, rfl, hphase, hfull, hnan, rfl⟩ | ⟨x, rfl, hphase, hfull, hnan, rfl⟩
    | ⟨rfl, hphase, rfl⟩ | ⟨rfl, hphase, rfl⟩ | ⟨index, rfl, hrange, rfl⟩ | ⟨index, byte, rfl, hrange, hread, rfl⟩
    | ⟨rfl, rfl⟩ | ⟨rfl, -⟩ | ⟨rfl, rfl⟩ | ⟨w, rfl, rfl⟩
  · exact ⟨_, exec_start_of_accepted hacc, rfl⟩
  · exact ⟨_, exec_start_of_rejected hacc, withoutFlags_raise_withFlags a b c d .domain⟩
  · exact ⟨_, exec_sample_of_not_encoding x hphase, withoutFlags_raise_withFlags a b c d .protocol⟩
  · exact ⟨_, exec_sample_of_full x hphase ((isFull_iff _).1 hfull), rfl⟩
  · refine ⟨_, exec_sample_of_not_full x hphase hfull, ?_⟩
    rw [if_pos hnan]
    exact withoutFlags_raise_withFlags a b c d .domain
  · refine ⟨_, exec_sample_of_not_full x hphase hfull, ?_⟩
    rw [hnan, encodeSample_withFlags]
    rfl
  · exact ⟨_, exec_finish_of_not_encoding hphase, withoutFlags_raise_withFlags a b c d .protocol⟩
  · refine ⟨_, exec_finish_of_encoding hphase, ?_⟩
    rw [alignLength_withFlags]
    rfl
  · exact ⟨_, exec_rdbyte_of_le hrange, rfl⟩
  · exact ⟨_, exec_rdbyte_of_written hrange hread, rfl⟩
  · exact ⟨_, rfl, rfl⟩
  · exact absurd rfl hi
  · exact ⟨_, rfl, rfl⟩
  · exact ⟨_, rfl, withoutFlags_raise_withFlags a b c d .illegal⟩

end

/-- Settles O49: RDSTAT's response is the one thing that `exec_withFlags` leaves out. -/
theorem setFlagsChangeNoCommand : Obligations.SetFlagsChangeNoCommand := by
  intro i s t a b c d h
  by_cases hi : i = .rdstat
  · subst hi
    cases h
    exact ⟨_, exec_rdstat (withFlags a b c d s), fun hne => absurd rfl hne, fun _ => rfl⟩
  · obtain ⟨u, hexec, hu⟩ := exec_withFlags a b c d hi h
    exact ⟨u, hexec, fun _ => hu, fun hstat => absurd hstat hi⟩

end Sys2Proof.Machine
end

section
/-! PROOFS. The family 70_reset_and_hazards.md: what RESET gives each register, signal and channel (R230), and what a step does
before the first RESET (R231). -/

namespace Sys2Proof.Machine

section
variable {s : State}

/-! ### The flags and the derived signals after RESET -/

theorem errorFree_assertReset (s : State) : ErrorFree (assertReset s) := fun e => by
  cases e <;> rfl

/-- RESET gives length 0, so FULL compares the capacity with 0 (10_state.md R27). -/
theorem isFull_assertReset_iff (s : State) : isFull (assertReset s) = true ↔ s.config.params.maxCapacity = 0 := by
  rw [isFull_iff, assertReset_outLen, assertReset_config]
  exact eq_comm

theorem inReady_of_not_encoding (h : s.phase ≠ .encoding) : inReady s = false := by
  simp [inReady, h]

theorem inReady_assertReset (s : State) : inReady (assertReset s) = false :=
  inReady_of_not_encoding (by rw [assertReset_phase]; decide)

/-! ### The steps before the first RESET -/

theorem step_of_command_before_reset {w : CommandWord} {rest : List HostInput} (hreset : s.wasReset = false)
    (h : s.inputs = .command w :: rest) : step s = .refused .beforeFirstReset := by
  unfold step
  rw [h]
  exact if_neg (Bool.eq_false_iff.1 hreset)

theorem step_of_takeResponse_before_reset {rest : List HostInput} (hreset : s.wasReset = false)
    (h : s.inputs = .takeResponse :: rest) : step s = .refused .beforeFirstReset := by
  unfold step
  rw [h]
  exact if_neg (Bool.eq_false_iff.1 hreset)

end

/-! ### The statements -/

/-- Settles O41: the step is `assertReset`, whose laws give the value of each register and channel. -/
theorem resetGivesTheResetValues : Obligations.ResetGivesTheResetValues := by
  intro s rest hin
  refine ⟨assertReset { s with inputs := rest }, step_of_reset hin, assertReset_phase _, assertReset_delta _, assertReset_acc _,
    assertReset_nbits _, assertReset_outLen _, fun i => ?_, errorFree_assertReset _, assertReset_responses _,
    isFull_assertReset_iff _, inReady_assertReset _⟩
  rw [assertReset_out, memRead_nil]

/-- Settles O42: a command and a response taken are refused, and RESET, which needs no earlier one, sets `wasReset`. -/
theorem nothingRunsBeforeTheFirstReset : Obligations.NothingRunsBeforeTheFirstReset :=
  fun _ _ hreset => ⟨fun _ => step_of_command_before_reset hreset, step_of_takeResponse_before_reset hreset,
    fun hin => ⟨_, step_of_reset hin, assertReset_wasReset _⟩⟩

end Sys2Proof.Machine
end
